-- ==== Sys2Proof/Word.lean ====
section
/-! DEFINITION. The word types of the block: bytes, the 32-bit words and the 64-bit operand and result words (spec/00_scope.md R6,
spec/30_encoding.md R42). -/

namespace Sys2Proof

/-- An 8-bit unsigned value: a byte of `FB`, of `PB` or of a stream (R26, R45). -/
abbrev Byte := BitVec 8

/-- A 32-bit word: a command header, `STATUS`, `WIDTH`, `HEIGHT` (R16, R42). -/
abbrev HWord := BitVec 32

/-- A 64-bit word: an operand word, `RESULT`, `FB_LEN`, `ITER` (R16, R42). -/
abbrev Word := BitVec 64

end Sys2Proof
end

