-- ==== Sys2Proof/Machine/Bytes.lean ====
section
/-! DEFINITION. Bits of bytes and little-endian byte order (spec/00_scope.md R8, spec/20_memory.md R27, R29, R34). -/

namespace Sys2Proof

/-- R29: the `n` little-endian bytes of `v`: byte `k` is `(v >> 8k) & 0xFF`. -/
def leBytes : Nat → Nat → List Byte
  | 0, _ => []
  | n + 1, v => BitVec.ofNat 8 v :: leBytes n (v / 256)

/-- R9 `MemRead`: a byte sequence read little-endian, the sum of byte `k` times `2^(8k)`. -/
def leNat : List Byte → Nat
  | [] => 0
  | x :: xs => x.toNat + 256 * leNat xs

/-- R27: bit `k` of a byte, `(x >> k) & 1`, bit 0 the least-significant. -/
def byteBit (x : Byte) (k : Nat) : Bool := x.getLsbD k

/-- R34: bit `k` of a byte replaced, `(x & ~(1 << k) & 0xFF) | (d << k)`. -/
def setByteBit (x : Byte) (k : Nat) (d : Bool) : Byte :=
  (x &&& ~~~(1#8 <<< k)) ||| ((BitVec.ofBool d).setWidth 8 <<< k)

/-- R9 `Bit` over a byte sequence: bit `i mod 8` of byte `i div 8`. Every caller has `i < 8 * len`. -/
def seqBit (f : List Byte) (i : Nat) : Bool := byteBit (f.getD (i / 8) 0) (i % 8)

end Sys2Proof
end

