-- ==== Sys2Proof/Config.lean ====
section
/-! DEFINITION. What is fixed for one block: the values the source fixes and the two buffer sizes the spec leaves OPEN
(spec/00_scope.md R6, decision D9). -/

namespace Sys2Proof

/-- The OPEN parameters of R6, an argument of the spec's `step` (R10). They are plain numbers that no command changes;
`Params.ok` says what R6 asks of them. -/
structure Params where
  /-- `FB_MAX_BYTES`, the size of `FB` in bytes. -/
  fbMaxBytes : Nat
  /-- `PB_MAX_BYTES`, the size of `PB` in bytes. -/
  pbMaxBytes : Nat
  deriving DecidableEq, Repr

/-- The constraints P1, P2 and P3 of R6. -/
abbrev Params.ok (p : Params) : Prop :=
  3 * p.pbMaxBytes / 32 ≤ p.fbMaxBytes ∧
  3 * p.pbMaxBytes / 32 ≤ 2 ^ 32 + 3 ∧
  8 * p.fbMaxBytes < 2 ^ 64

/-- The example values of R6 ("not normative"). DESIGN CHOICE, notes/assumptions/1.md: `State.reset` uses them because it
must be one state; no statement rests on them. Unsafe where a claim is about `State.reset` alone. -/
def Params.sample : Params := { fbMaxBytes := 6291456, pbMaxBytes := 2 ^ 26 }

/-- `HEADER_SIZE` of R6: bytes of a frame header. -/
abbrev headerSize : Nat := 4

/-- `CHANNELS` of R6: bytes of a pixel, in the order R, G, B, A. -/
abbrev channels : Nat := 4

/-- `USABLE_CHANNELS` of R6: bytes of a pixel that carry a bit. -/
abbrev usableChannels : Nat := 3

/-- `DENSITY` of R6: bits a carrier byte holds. -/
abbrev density : Nat := 1

end Sys2Proof
end

