-- ==== Sys2Proof/Machine/State.lean ====
section
/-! DEFINITION. The state of the block as plain data (spec/10_state.md R16 to R24, spec/20_memory.md R26,
spec/30_encoding.md R44 to R46), the reasons a step can stop, and the state after reset. -/

namespace Sys2Proof.Machine

/-- A byte memory: address and byte pairs, strictly rising, no entry equal to `Memory.unlisted`. -/
abbrev Memory := List Host.Cell

/-- What a byte that nothing has written reads as. DESIGN CHOICE, notes/assumptions/6.md: R23 leaves these bytes
unspecified, says no command observes them and lets a model "hold them as any value". Unsafe only for a claim about bytes
at or beyond the valid range of a space. -/
def Memory.unlisted : Byte := 0

/-- Every entry at address `lo` or above, strictly rising, none equal to `unlisted`. -/
def Memory.risingFrom : Nat → Memory → Bool
  | _, [] => true
  | lo, (a, x) :: m => decide (lo ≤ a) && x != Memory.unlisted && Memory.risingFrom (a + 1) m

/-- The canonical form. -/
def Memory.wf (m : Memory) : Bool := Memory.risingFrom 0 m

/-- Every entry of the memory lies below `n`. -/
def Memory.below (n : Nat) (m : Memory) : Bool := m.all (fun c => decide (c.1 < n))

/-- One response of R44. -/
structure Response where
  /-- The value left in `STATUS`. -/
  status : HWord
  /-- The value left in `RESULT`. -/
  result : Word
  /-- The output bytes `OUT`. -/
  out : List Byte
  deriving DecidableEq, Repr

/-- One thing the host does at the block's interface (R46, R105). -/
inductive HostInput where
  /-- A byte on the command stream. -/
  | byte (x : Byte)
  /-- The reset input asserted while the block is idle or still reads a command: every command whose last byte stands
  before it has sent its whole response. -/
  | reset
  /-- The reset input asserted while the command whose last byte stands just before it executes or sends its response
  (R101, R105; notes/assumptions/5.md). -/
  | resetInCommand
  deriving DecidableEq, Repr

/-- Reasons for which a run of the model stops with a fault. The spec has no stop (R92); both faults guard the end of an
address space and no state that meets R24 under the constraints of R6 reaches them (notes/assumptions/8.md). -/
inductive Fault where
  /-- Raised by BA_READ, BA_WRITE, BA_ITER_NEXT, BA_DUMP and CD_DECODE for a byte at or beyond `FB_MAX_BYTES`, which `FB`
  does not have (R26). Safe: only a state that breaks I1 of R24 or parameters that break P1 of R6 raise it. -/
  | outsideFb
  /-- Raised by PB_DUMP, PB_LSBRD, PB_LSBWR, CD_ENCODE and CD_DECODE for a byte at or beyond `PB_MAX_BYTES`, which `PB`
  does not have (R26). Safe: only a state that breaks I3 of R24 raises it. -/
  | outsidePb
  deriving DecidableEq, Repr

/-- Reasons for which the model has no meaning for a command. -/
inductive Refusal where
  /-- Raised by an arm of `exec` whose instruction has no meaning yet; safe. No arm raises it now. -/
  | notModelled (mnemonic : String)
  /-- Raised by BA_INIT, PK_CONCAT, FR_BUILD, PB_LOAD and CD_ENCODE for a transaction whose data bytes are not `dlen` in
  number: "a malformed transaction has no representation in the model" (R42, R104). Safe: the decoder never gives one
  (notes/assumptions/9.md). -/
  | malformed
  deriving DecidableEq, Repr

/-- The state. -/
structure State where
  /-- `FB_MAX_BYTES` and `PB_MAX_BYTES` (R6): an argument of the spec's `step`, which no command changes
  (notes/assumptions/1.md). -/
  params : Params
  /-- `STATUS`, 32 bits (R17). -/
  status : HWord
  /-- `RESULT`, 64 bits (R18). -/
  result : Word
  /-- `FB_LEN`, 64 bits (R19). -/
  fbLen : Word
  /-- `ITER`, 64 bits (R20). -/
  iter : Word
  /-- `WIDTH`, 32 bits (R21). -/
  width : HWord
  /-- `HEIGHT`, 32 bits (R21). -/
  height : HWord
  /-- The frame and BitArray buffer `FB` (R26). -/
  fb : Memory
  /-- The pixel and carrier buffer `PB` (R26). -/
  pb : Memory
  /-- What the host does and the block has not yet taken, oldest first: the command stream and the reset input (R46;
  notes/assumptions/2.md). -/
  inputs : List HostInput
  /-- The responses sent, oldest first (R44, R46; notes/assumptions/3.md). Its length is the position of R14. -/
  sent : List Response
  deriving DecidableEq, Repr

/-- R23: the state after reset, for any parameters: every register 0, nothing listed in `FB` and `PB`. -/
def State.resetWith (p : Params) : State where
  params := p
  status := 0
  result := 0
  fbLen := 0
  iter := 0
  width := 0
  height := 0
  fb := []
  pb := []
  inputs := []
  sent := []

/-- The machine right after reset, with the example parameters of R6 (notes/assumptions/1.md). -/
def State.reset : State := State.resetWith Params.sample

end Sys2Proof.Machine
end

