-- ==== Sys2Proof/Machine/Flags.lean ====
section
/-! DEFINITION. The outcome word `STATUS`: error kinds, codes and contexts (spec/10_state.md R17, R22,
spec/60_exceptions.md R87, R88). The block has no flags; `STATUS` is its one outcome indicator (R22). -/

namespace Sys2Proof.Machine

/-- The kinds of R87. `decodingError` and `typeError` are reserved: no row of R88 has them and the block never raises
them. -/
inductive ErrorKind where
  | ok | indexError | capacityError | corruptionError | decodingError | typeError | resourceError | illegalCommand
  deriving DecidableEq, Repr

/-- The rows of R88: every error the block raises. -/
inductive Err where
  /-- IndexError 1: a BitArray index below 0. -/
  | indexNegative
  /-- IndexError 2: an index at or beyond the end. -/
  | indexBeyond
  /-- CapacityError 1: encode, image too small. -/
  | encodeTooSmall
  /-- CapacityError 2: decode, image too small. -/
  | decodeTooSmall
  /-- CapacityError 3: encode, payload too large. -/
  | payloadTooLarge
  /-- CapacityError 4: encode, payload empty. -/
  | payloadEmpty
  /-- CorruptionError 1: decode, header length 0. -/
  | headerZero
  /-- CorruptionError 2: decode, header length beyond the capacity. -/
  | headerTooLarge
  /-- ResourceError 1: `FB` too small. -/
  | fbTooSmall
  /-- ResourceError 2: `PB` too small. -/
  | pbTooSmall
  /-- IllegalCommand 1: undefined opcode. -/
  | undefinedOpcode
  /-- IllegalCommand 2: reserved header bits not zero. -/
  | reservedBits
  /-- IllegalCommand 3: operand out of range. -/
  | operandRange
  deriving DecidableEq, Repr

/-- The `CODE` column of R87. -/
def ErrorKind.code : ErrorKind → Nat
  | .ok => 0
  | .indexError => 1
  | .capacityError => 2
  | .corruptionError => 3
  | .decodingError => 4
  | .typeError => 5
  | .resourceError => 6
  | .illegalCommand => 7

/-- The `kind` column of R88. -/
def Err.kind : Err → ErrorKind
  | .indexNegative => .indexError
  | .indexBeyond => .indexError
  | .encodeTooSmall => .capacityError
  | .decodeTooSmall => .capacityError
  | .payloadTooLarge => .capacityError
  | .payloadEmpty => .capacityError
  | .headerZero => .corruptionError
  | .headerTooLarge => .corruptionError
  | .fbTooSmall => .resourceError
  | .pbTooSmall => .resourceError
  | .undefinedOpcode => .illegalCommand
  | .reservedBits => .illegalCommand
  | .operandRange => .illegalCommand

/-- The `CTX` column of R88. -/
def Err.ctx : Err → Nat
  | .indexNegative => 1
  | .indexBeyond => 2
  | .encodeTooSmall => 1
  | .decodeTooSmall => 2
  | .payloadTooLarge => 3
  | .payloadEmpty => 4
  | .headerZero => 1
  | .headerTooLarge => 2
  | .fbTooSmall => 1
  | .pbTooSmall => 2
  | .undefinedOpcode => 1
  | .reservedBits => 2
  | .operandRange => 3

/-- R9 `raise`: the word an error leaves in `STATUS`, `code(E) | (ctx << 4)`. -/
def Err.status (e : Err) : HWord := BitVec.ofNat 32 (e.kind.code ||| (e.ctx <<< 4))

/-- R17: the field `STATUS[3:0]`. -/
def statusCode (st : HWord) : BitVec 4 := st.extractLsb' 0 4

/-- R17: the field `STATUS[7:4]`. -/
def statusCtx (st : HWord) : BitVec 4 := st.extractLsb' 4 4

end Sys2Proof.Machine
end

