-- ==== Sys2Proof/Machine/Ops.lean ====
section
/-! DEFINITION. The shared operations: bytes of a memory, the end of a command with success (`done`) or with an error
(`raise`, the block's one exception entry), constructions of the BitArray, the guards, and the reset input
(spec/00_scope.md R9, spec/20_memory.md, spec/60_exceptions.md R91, R92, spec/70_reset_and_hazards.md R101). -/

namespace Sys2Proof.Machine

/-- The outcome of a command. -/
abbrev Result := Host.Outcome State Fault Refusal

/-! Memory. -/

/-- R9 `MemRead` of one byte. -/
def Memory.read : Memory → Nat → Byte
  | [], _ => Memory.unlisted
  | (a, x) :: m, k => if k < a then Memory.unlisted else if k = a then x else Memory.read m k

/-- R9 `MemWrite` of one byte, keeping the canonical form. -/
def Memory.write : Memory → Nat → Byte → Memory
  | [], k, y => if y = Memory.unlisted then [] else [(k, y)]
  | (a, x) :: m, k, y =>
    if k < a then (if y = Memory.unlisted then (a, x) :: m else (k, y) :: (a, x) :: m)
    else if k = a then (if y = Memory.unlisted then m else (k, y) :: m)
    else (a, x) :: Memory.write m k y

/-- `for j in 0 .. n-1: S[at + j] <- ys[j]`, ascending. -/
def Memory.writeBytes : Memory → Nat → List Byte → Memory
  | m, _, [] => m
  | m, k, y :: ys => Memory.writeBytes (m.write k y) (k + 1) ys

/-- `S[at .. at + n - 1]`. -/
def Memory.readBytes : Memory → Nat → Nat → List Byte
  | _, _, 0 => []
  | m, k, n + 1 => m.read k :: Memory.readBytes m (k + 1) n

/-- R9 `Bit`: bit `i mod 8` of byte `i div 8`. -/
def Memory.bit (m : Memory) (i : Nat) : Bool := byteBit (m.read (i / 8)) (i % 8)

/-- R34: one bit written, `S[i div 8]` with bit `i mod 8` replaced. -/
def Memory.setBit (m : Memory) (i : Nat) (d : Bool) : Memory :=
  m.write (i / 8) (setByteBit (m.read (i / 8)) (i % 8) d)

/-! The end of a command. -/

/-- R9, R44: `STATUS` and `RESULT` written and the response sent. -/
def State.respond (s : State) (st : HWord) (r : Word) (out : List Byte) : State :=
  { s with status := st, result := r, sent := s.sent ++ [{ status := st, result := r, out := out }] }

/-- R9 `done(r)` after `emit(out)`. `r` is exact and below `2^64` in every state that meets R24 (notes/assumptions/12.md). -/
def done (r : Nat) (out : List Byte) (s : State) : Result := .next (s.respond 0 (BitVec.ofNat 64 r) out)

/-- R9 `raise E(ctx, r)`, R91: TAKING AN ERROR, the one exception entry of the block. `STATUS` and `RESULT` are written
and the response is sent with `OUT` empty. Nothing is saved and nothing else changes: no return address, cause, mode or
vector exists. There is no return from an error, because none is needed (R92): the next command runs in this state. -/
def raise (e : Err) (r : Nat) (s : State) : Result := .next (s.respond e.status (BitVec.ofNat 64 r) [])

/-! Constructions of the BitArray (R19, spec/41_bitarray.md). -/

/-- `FB`, `FB_LEN` and `ITER` set together by a construction. -/
def State.construct (s : State) (fb : Memory) (len : Nat) : State :=
  { s with fb := fb, fbLen := BitVec.ofNat 64 len, iter := 0 }

/-! Guards. -/

/-- R26: the command touches bytes of `FB` below `n`. -/
def guardFb (n : Nat) (s : State) (k : Result) : Result :=
  if n ≤ s.params.fbMaxBytes then k else .fault .outsideFb

/-- R26: the command touches bytes of `PB` below `n`. -/
def guardPb (n : Nat) (s : State) (k : Result) : Result :=
  if n ≤ s.params.pbMaxBytes then k else .fault .outsidePb

/-- R42: the command has exactly `n` data bytes. -/
def needData (n : Nat) (d : List Byte) (k : Result) : Result :=
  if d.length = n then k else .refused .malformed

/-! The host's side. -/

/-- R101: the reset input. Every register takes its reset value (R23) and a command in progress is abandoned without a
response; `rest` is what the host does afterwards. `FB` and `PB` keep bytes that nothing can observe
(notes/assumptions/5.md). Responses sent whole before it stay sent. -/
def State.applyReset (s : State) (rest : List HostInput) : State :=
  { s with status := 0, result := 0, fbLen := 0, iter := 0, width := 0, height := 0, inputs := rest }

/-- R45: the first `n` things of the input are taken. -/
def State.consume (s : State) (n : Nat) : State := { s with inputs := s.inputs.drop n }

/-- R45: a response on the wire: `STATUS` as 4 bytes, `RESULT` as 8, the length of `OUT` as 8, then `OUT`. -/
def Response.toBytes (r : Response) : List Byte :=
  leBytes 4 r.status.toNat ++ leBytes 8 r.result.toNat ++ leBytes 8 r.out.length ++ r.out

/-- R46: the bytes sent on the response stream. -/
def State.tx (s : State) : List Byte := s.sent.flatMap Response.toBytes

end Sys2Proof.Machine
end

