-- ==== Sys2Proof/Machine/Operands.lean ====
section
/-! DEFINITION. Operand forms (spec/30_encoding.md R49), the carrier's size (spec/10_state.md R21), the channel map
(spec/43_channel_mapper.md R68) and the capacity functions (spec/44_capacity.md R76). All arithmetic is exact (R7). -/

namespace Sys2Proof.Machine

/-- R49: the signed bit index of BA_READ and BA_WRITE, `sext_64(A)` (R8). -/
def bitIndex (a : Word) : Int := a.toInt

/-- R49: the bit that BA_WRITE and PB_LSBWR write, `v & 1`. -/
def writeBit (v : Byte) : Bool := byteBit v 0

/-- R21: the byte length of a carrier of `w` by `h` pixels, `4*w*h`. -/
def carrierLen (w h : HWord) : Nat := 4 * w.toNat * h.toNat

/-- R21: `PB_LEN`, derived from `WIDTH` and `HEIGHT`. -/
def State.pbLen (s : State) : Nat := carrierLen s.width s.height

/-- R72: the geometry PB_DUMP returns, `(WIDTH << 32) | HEIGHT`. -/
def State.geometry (s : State) : Nat := (s.width.toNat <<< 32) ||| s.height.toNat

/-- R68: the byte offset in the carrier of logical bit `b`. -/
def offset (b : Nat) : Nat := 4 * (b / 3) + b % 3

/-- R28: the byte of `PB` that holds channel `c` (0 R, 1 G, 2 B, 3 A) of the pixel in column `x` of row `y`: row-major, 4
bytes a pixel. No meaning uses it; R69 M5 relates it to `offset`. -/
def pixelByte (w : HWord) (x y c : Nat) : Nat := channels * (y * w.toNat + x) + c

/-- R76: `usable_bits(w, h)`. -/
def usableBits (w h : HWord) : Nat := 3 * w.toNat * h.toNat

/-- R76: `mt(w, h)`, maxTotalBytes. -/
def maxTotal (w h : HWord) : Nat := usableBits w h / 8

/-- R76: `max_payload(w, h)`, which may be negative. -/
def maxPayload (w h : HWord) : Int := (maxTotal w h : Int) - 4

/-- R79: `max_payload(w, h) mod 2^64`, its 64-bit two's-complement pattern. -/
def maxPayloadWord (w h : HWord) : Nat := (maxPayload w h % 2 ^ 64).toNat

/-- R76: `img_ok(w, h)`, isValidImageSize. -/
def imgOk (w h : HWord) : Bool := decide (maxTotal w h > headerSize)

/-- R76: `pay_ok(w, h, n)`, isValidPayloadSize, written `n + 4 <= mt(w, h)` as R81 does. -/
def payOk (w h : HWord) (n : Nat) : Bool := decide (0 < n) && decide (n + headerSize ≤ maxTotal w h)

/-! Least-significant bits of the carrier at mapped offsets. -/

/-- R73: the bit the carrier holds at logical index `b`, `PB[offset(b)] & 1`. -/
def Memory.lsb (m : Memory) (b : Nat) : Bool := byteBit (m.read (offset b)) 0

/-- R74: the bit written at logical index `b`, `PB[o] <- (PB[o] & 0xFE) | d` with `o = offset(b)`. -/
def Memory.setLsb (m : Memory) (b : Nat) (d : Bool) : Memory :=
  m.write (offset b) ((m.read (offset b) &&& 0xFE#8) ||| (BitVec.ofBool d).setWidth 8)

/-- R83 step 5: `for b in 0 .. k-1: PB[offset(b)] <- (PB[offset(b)] & 0xFE) | bit b of F`, ascending. -/
def Memory.embed (m : Memory) (f : List Byte) : Nat → Memory
  | 0 => m
  | k + 1 => (Memory.embed m f k).setLsb k (seqBit f k)

/-- R84: the sum over `k < n` of the carrier bit at `base + k` times `2^k`. -/
def Memory.gather (m : Memory) (base : Nat) : Nat → Nat
  | 0 => 0
  | n + 1 => Memory.gather m base n + ((m.lsb (base + n)).toNat <<< n)

/-- R84 step 4: the payload bytes `j, j+1, .., j+n-1` read from the carrier, byte `j` from the logical bits
`32 + 8j .. 32 + 8j + 7`. -/
def Memory.extract (m : Memory) : Nat → Nat → List Byte
  | _, 0 => []
  | j, n + 1 => BitVec.ofNat 8 (m.gather (32 + 8 * j) 8) :: Memory.extract m (j + 1) n

/-- R62, R83 step 3: the frame of a payload of `n` bytes, `LE32(n) ++ D`. -/
def frame (n : Nat) (d : List Byte) : List Byte := leBytes 4 n ++ d

end Sys2Proof.Machine
end

