-- ==== Sys2Proof/Machine/BitArray.lean ====
section
/-! DEFINITION. The BitArray commands (spec/41_bitarray.md R54 to R60). -/

namespace Sys2Proof.Machine

/-- R54, BA_INIT: the BitArray built from the `A` data bytes. -/
def execBaInit (a : Word) (d : List Byte) (s : State) : Result :=
  needData a.toNat d <|
    if a.toNat > s.params.fbMaxBytes then raise .fbTooSmall 0 s
    else done a.toNat [] (s.construct (s.fb.writeBytes 0 d) a.toNat)

/-- R55, BA_LEN: the bit length. -/
def execBaLen (s : State) : Result := done (8 * s.fbLen.toNat) [] s

/-- R56, BA_READ: one bit, the index signed. -/
def execBaRead (a : Word) (s : State) : Result :=
  let i := bitIndex a
  if i < 0 then raise .indexNegative 0 s
  else if i ≥ 8 * s.fbLen.toNat then raise .indexBeyond 0 s
  else guardFb (i.toNat / 8 + 1) s <| done (s.fb.bit i.toNat).toNat [] s

/-- R57, BA_WRITE: bit `v & 1` written at a signed index. -/
def execBaWrite (v : Byte) (a : Word) (s : State) : Result :=
  let i := bitIndex a
  if i < 0 then raise .indexNegative 0 s
  else if i ≥ 8 * s.fbLen.toNat then raise .indexBeyond 0 s
  else guardFb (i.toNat / 8 + 1) s <| done 0 [] { s with fb := s.fb.setBit i.toNat (writeBit v) }

/-- R58, BA_ITER_START: iteration at bit 0. -/
def execBaIterStart (s : State) : Result := done 0 [] { s with iter := 0 }

/-- R59, BA_ITER_NEXT: the next bit, read live, or the end marker 2. -/
def execBaIterNext (s : State) : Result :=
  if s.iter.toNat < 8 * s.fbLen.toNat then
    guardFb (s.iter.toNat / 8 + 1) s <|
      done (s.fb.bit s.iter.toNat).toNat [] { s with iter := s.iter + 1 }
  else done 2 [] s

/-- R60, BA_DUMP: the bytes of the BitArray sent out. -/
def execBaDump (s : State) : Result :=
  guardFb s.fbLen.toNat s <| done s.fbLen.toNat (s.fb.readBytes 0 s.fbLen.toNat) s

end Sys2Proof.Machine
end

