-- ==== Sys2Proof/Machine/Capacity.lean ====
section
/-! DEFINITION. The capacity-validator commands (spec/44_capacity.md R78 to R81). They read their operands only. -/

namespace Sys2Proof.Machine

/-- R78, CV_MAXTOTAL: `mt(w, h)`. -/
def execCvMaxtotal (w h : HWord) (s : State) : Result := done (maxTotal w h) [] s

/-- R79, CV_MAXPAY: `(mt(w, h) - 4) mod 2^64`, the two's-complement pattern of the signed difference. -/
def execCvMaxpay (w h : HWord) (s : State) : Result := done (maxPayloadWord w h) [] s

/-- R80, CV_IMGOK: 1 if `img_ok(w, h)`, else 0. -/
def execCvImgok (w h : HWord) (s : State) : Result := done (if imgOk w h then 1 else 0) [] s

/-- R81, CV_PAYOK: 1 if `pay_ok(w, h, n)`, else 0, compared exactly. -/
def execCvPayok (w h : HWord) (b : Word) (s : State) : Result :=
  done (if payOk w h b.toNat then 1 else 0) [] s

end Sys2Proof.Machine
end

