-- ==== Sys2Proof/Machine/Codec.lean ====
section
/-! DEFINITION. The codec sequencer commands (spec/45_codec.md R83, R84). -/

namespace Sys2Proof.Machine

/-- R83, CD_ENCODE: the frame of the payload embedded in the carrier, after every check. The frame is internal: `FB` is
neither read nor written. -/
def execCdEncode (a : Word) (d : List Byte) (s : State) : Result :=
  needData a.toNat d <|
    let n := a.toNat
    let m := maxTotal s.width s.height
    if ¬ m > headerSize then raise .encodeTooSmall 0 s
    else if n = 0 then raise .payloadEmpty (m - 4) s
    else if n > m - 4 then raise .payloadTooLarge (m - 4) s
    else guardPb s.pbLen s <| done (4 + n) [] { s with pb := s.pb.embed (frame n d) (8 * (4 + n)) }

/-- R84, CD_DECODE: the payload extracted from the carrier into `FB`, as a construction. -/
def execCdDecode (s : State) : Result :=
  let m := maxTotal s.width s.height
  if ¬ m > headerSize then raise .decodeTooSmall 0 s
  else
    guardPb s.pbLen s <|
      let n := s.pb.gather 0 32
      if n = 0 then raise .headerZero n s
      else if n > m - 4 then raise .headerTooLarge n s
      else guardFb n s <| done n [] (s.construct (s.fb.writeBytes 0 (s.pb.extract 0 n)) n)

end Sys2Proof.Machine
end

