-- ==== Sys2Proof/Machine/Mapper.lean ====
section
/-! DEFINITION. The channel-mapper and carrier commands (spec/43_channel_mapper.md R70 to R74). -/

namespace Sys2Proof.Machine

/-- R70, CM_MAP: `offset(b)`; IllegalCommand context 3 for `b >= 2^48` (R51). -/
def execCmMap (a : Word) (s : State) : Result :=
  if a.toNat ≥ 2 ^ 48 then raise .operandRange 0 s
  else done (offset a.toNat) [] s

/-- R71, PB_LOAD: the carrier bytes and their geometry loaded. -/
def execPbLoad (w h : HWord) (d : List Byte) (s : State) : Result :=
  needData (carrierLen w h) d <|
    if carrierLen w h > s.params.pbMaxBytes then raise .pbTooSmall 0 s
    else done (carrierLen w h) [] { s with pb := s.pb.writeBytes 0 d, width := w, height := h }

/-- R72, PB_DUMP: the carrier bytes sent out, `RESULT = (WIDTH << 32) | HEIGHT`. -/
def execPbDump (s : State) : Result :=
  guardPb s.pbLen s <| done s.geometry (s.pb.readBytes 0 s.pbLen) s

/-- R73, PB_LSBRD: the carrier bit at a logical index. -/
def execPbLsbrd (a : Word) (s : State) : Result :=
  if offset a.toNat ≥ s.pbLen then raise .indexBeyond 0 s
  else guardPb (offset a.toNat + 1) s <| done (s.pb.lsb a.toNat).toNat [] s

/-- R74, PB_LSBWR: bit `v & 1` written at a logical index of the carrier. -/
def execPbLsbwr (v : Byte) (a : Word) (s : State) : Result :=
  if offset a.toNat ≥ s.pbLen then raise .indexBeyond 0 s
  else guardPb (offset a.toNat + 1) s <| done 0 [] { s with pb := s.pb.setLsb a.toNat (writeBit v) }

end Sys2Proof.Machine
end

