-- ==== Sys2Proof/Machine/Packing.lean ====
section
/-! DEFINITION. The byte-packing and frame commands (spec/42_packing.md R63 to R66). -/

namespace Sys2Proof.Machine

/-- R63, PK_LE32: the 4 little-endian bytes of a uint32; IllegalCommand context 3 beyond that range (R51). -/
def execPkLe32 (a : Word) (s : State) : Result :=
  if a.toNat ≥ 2 ^ 32 then raise .operandRange 0 s
  else done 4 (leBytes 4 a.toNat) s

/-- R64, PK_FROMLE32: four bytes read as a little-endian uint32. -/
def execPkFromle32 (d0 d1 d2 d3 : Byte) (s : State) : Result := done (leNat [d0, d1, d2, d3]) [] s

/-- R65, PK_CONCAT: the data bytes appended, as a new BitArray. -/
def execPkConcat (a : Word) (d : List Byte) (s : State) : Result :=
  needData a.toNat d <|
    if s.fbLen.toNat + a.toNat > s.params.fbMaxBytes then raise .fbTooSmall 0 s
    else
      done (s.fbLen.toNat + a.toNat) []
        (s.construct (s.fb.writeBytes s.fbLen.toNat d) (s.fbLen.toNat + a.toNat))

/-- R66, FR_BUILD: the frame of the data bytes; IllegalCommand context 3 when the header cannot hold the length (R51). -/
def execFrBuild (a : Word) (d : List Byte) (s : State) : Result :=
  needData a.toNat d <|
    if a.toNat ≥ 2 ^ 32 then raise .operandRange 0 s
    else if 4 + a.toNat > s.params.fbMaxBytes then raise .fbTooSmall 0 s
    else done (4 + a.toNat) [] (s.construct (s.fb.writeBytes 0 (frame a.toNat d)) (4 + a.toNat))

end Sys2Proof.Machine
end

