-- ==== Sys2Proof/Syntax.lean ====
section
/-! DEFINITION. The 22 commands of spec/opcode_table.json and spec/30_encoding.md R47, one constructor a row, with the operands
R49 gives them. -/

namespace Sys2Proof

/-- A command. `a` and `b` are the operand words `A` and `B`, `v` is the header field `H[23:16]`, `d` the data bytes `D`
(R42, R43). A geometry operand is held as its two halves `w = A[63:32]` and `h = A[31:0]` (R49). -/
inductive Instr where
  /-- `BA_INIT`, opcode 0x10 (R54). -/
  | baInit (a : Word) (d : List Byte)
  /-- `BA_LEN`, opcode 0x11 (R55). -/
  | baLen
  /-- `BA_READ`, opcode 0x12 (R56). -/
  | baRead (a : Word)
  /-- `BA_WRITE`, opcode 0x13 (R57). -/
  | baWrite (v : Byte) (a : Word)
  /-- `BA_ITER_START`, opcode 0x14 (R58). -/
  | baIterStart
  /-- `BA_ITER_NEXT`, opcode 0x15 (R59). -/
  | baIterNext
  /-- `BA_DUMP`, opcode 0x16 (R60). -/
  | baDump
  /-- `PK_LE32`, opcode 0x20 (R63). -/
  | pkLe32 (a : Word)
  /-- `PK_FROMLE32`, opcode 0x21 (R64): exactly four data bytes. -/
  | pkFromle32 (d0 d1 d2 d3 : Byte)
  /-- `PK_CONCAT`, opcode 0x22 (R65). -/
  | pkConcat (a : Word) (d : List Byte)
  /-- `FR_BUILD`, opcode 0x23 (R66). -/
  | frBuild (a : Word) (d : List Byte)
  /-- `CM_MAP`, opcode 0x30 (R70). -/
  | cmMap (a : Word)
  /-- `PB_LOAD`, opcode 0x31 (R71). -/
  | pbLoad (w h : HWord) (d : List Byte)
  /-- `PB_DUMP`, opcode 0x32 (R72). -/
  | pbDump
  /-- `PB_LSBRD`, opcode 0x33 (R73). -/
  | pbLsbrd (a : Word)
  /-- `PB_LSBWR`, opcode 0x34 (R74). -/
  | pbLsbwr (v : Byte) (a : Word)
  /-- `CV_MAXTOTAL`, opcode 0x40 (R78). -/
  | cvMaxtotal (w h : HWord)
  /-- `CV_MAXPAY`, opcode 0x41 (R79). -/
  | cvMaxpay (w h : HWord)
  /-- `CV_IMGOK`, opcode 0x42 (R80). -/
  | cvImgok (w h : HWord)
  /-- `CV_PAYOK`, opcode 0x43 (R81). -/
  | cvPayok (w h : HWord) (b : Word)
  /-- `CD_ENCODE`, opcode 0x50 (R83). -/
  | cdEncode (a : Word) (d : List Byte)
  /-- `CD_DECODE`, opcode 0x51 (R84). -/
  | cdDecode
  deriving DecidableEq, Repr

end Sys2Proof
end

