-- ==== Sys2Proof/Machine/Dispatch.lean ====
section
/-! DEFINITION. The meaning of every command, one arm a constructor (spec/30_encoding.md R47). -/

namespace Sys2Proof.Machine

def exec (i : Instr) (s : State) : Host.Outcome State Fault Refusal :=
  match i with
  | .baInit a d => Sys2Proof.Machine.execBaInit a d s
  | .baLen => Sys2Proof.Machine.execBaLen s
  | .baRead a => Sys2Proof.Machine.execBaRead a s
  | .baWrite v a => Sys2Proof.Machine.execBaWrite v a s
  | .baIterStart => Sys2Proof.Machine.execBaIterStart s
  | .baIterNext => Sys2Proof.Machine.execBaIterNext s
  | .baDump => Sys2Proof.Machine.execBaDump s
  | .pkLe32 a => Sys2Proof.Machine.execPkLe32 a s
  | .pkFromle32 d0 d1 d2 d3 => Sys2Proof.Machine.execPkFromle32 d0 d1 d2 d3 s
  | .pkConcat a d => Sys2Proof.Machine.execPkConcat a d s
  | .frBuild a d => Sys2Proof.Machine.execFrBuild a d s
  | .cmMap a => Sys2Proof.Machine.execCmMap a s
  | .pbLoad w h d => Sys2Proof.Machine.execPbLoad w h d s
  | .pbDump => Sys2Proof.Machine.execPbDump s
  | .pbLsbrd a => Sys2Proof.Machine.execPbLsbrd a s
  | .pbLsbwr v a => Sys2Proof.Machine.execPbLsbwr v a s
  | .cvMaxtotal w h => Sys2Proof.Machine.execCvMaxtotal w h s
  | .cvMaxpay w h => Sys2Proof.Machine.execCvMaxpay w h s
  | .cvImgok w h => Sys2Proof.Machine.execCvImgok w h s
  | .cvPayok w h b => Sys2Proof.Machine.execCvPayok w h b s
  | .cdEncode a d => Sys2Proof.Machine.execCdEncode a d s
  | .cdDecode => Sys2Proof.Machine.execCdDecode s

end Sys2Proof.Machine
end

