-- ==== Sys2Proof/WellFormed.lean ====
section
/-! DEFINITION. Which terms of `Instr` are well-formed commands: those with exactly `dlen(opcode, A)` data bytes
(spec/30_encoding.md R42, R47). -/

namespace Sys2Proof

/-- R42: `len(D) = dlen(opcode, A)`. The count of operand words is right by the shape of `Instr`; `PK_FROMLE32` has its
four data bytes by its shape. -/
def Instr.wf : Instr → Bool
  | .baInit a d => d.length == a.toNat
  | .baLen => true
  | .baRead _ => true
  | .baWrite _ _ => true
  | .baIterStart => true
  | .baIterNext => true
  | .baDump => true
  | .pkLe32 _ => true
  | .pkFromle32 _ _ _ _ => true
  | .pkConcat a d => d.length == a.toNat
  | .frBuild a d => d.length == a.toNat
  | .cmMap _ => true
  | .pbLoad w h d => d.length == 4 * w.toNat * h.toNat
  | .pbDump => true
  | .pbLsbrd _ => true
  | .pbLsbwr _ _ => true
  | .cvMaxtotal _ _ => true
  | .cvMaxpay _ _ => true
  | .cvImgok _ _ => true
  | .cvPayok _ _ _ => true
  | .cdEncode a d => d.length == a.toNat
  | .cdDecode => true

end Sys2Proof
end

