-- ==== Sys2Proof/Decode.lean ====
section
/-! DEFINITION. The opcode map, the decoder of the command byte stream, total on any bytes, and the encoder
(spec/30_encoding.md R42 to R52). -/

namespace Sys2Proof

/-- The 22 defined opcodes of R47. -/
inductive Op where
  | baInit | baLen | baRead | baWrite | baIterStart | baIterNext | baDump
  | pkLe32 | pkFromle32 | pkConcat | frBuild
  | cmMap | pbLoad | pbDump | pbLsbrd | pbLsbwr
  | cvMaxtotal | cvMaxpay | cvImgok | cvPayok
  | cdEncode | cdDecode
  deriving DecidableEq, Repr

/-- Why a command is no legal encoding: the IllegalCommand contexts 1 and 2 of R50 and R51, which the header alone shows.
Context 3, an operand out of range, is raised by the three meanings that R51 names (notes/assumptions/10.md). -/
inductive Illegal where
  /-- Context 1: the opcode is not in R47. -/
  | undefinedOpcode
  /-- Context 2: `H[15:0]` is not 0, or `H[23:16]` is not 0 in a command without `v`. -/
  | reservedBits
  deriving DecidableEq, Repr

/-- What the decoder finds at the head of the command stream. `n` is how many bytes the command takes (R45). -/
inductive Decoded where
  /-- A legal command. -/
  | instr (i : Instr) (n : Nat)
  /-- A whole command that is no legal encoding. -/
  | illegal (e : Illegal) (n : Nat)
  /-- Bytes of the command are still to come. -/
  | incomplete
  deriving DecidableEq, Repr

/-- The `opcode` column of R47. -/
def Op.code : Op → Byte
  | .baInit => 0x10
  | .baLen => 0x11
  | .baRead => 0x12
  | .baWrite => 0x13
  | .baIterStart => 0x14
  | .baIterNext => 0x15
  | .baDump => 0x16
  | .pkLe32 => 0x20
  | .pkFromle32 => 0x21
  | .pkConcat => 0x22
  | .frBuild => 0x23
  | .cmMap => 0x30
  | .pbLoad => 0x31
  | .pbDump => 0x32
  | .pbLsbrd => 0x33
  | .pbLsbwr => 0x34
  | .cvMaxtotal => 0x40
  | .cvMaxpay => 0x41
  | .cvImgok => 0x42
  | .cvPayok => 0x43
  | .cdEncode => 0x50
  | .cdDecode => 0x51

/-- Every row of R47. -/
def Op.all : List Op :=
  [.baInit, .baLen, .baRead, .baWrite, .baIterStart, .baIterNext, .baDump,
   .pkLe32, .pkFromle32, .pkConcat, .frBuild,
   .cmMap, .pbLoad, .pbDump, .pbLsbrd, .pbLsbwr,
   .cvMaxtotal, .cvMaxpay, .cvImgok, .cvPayok, .cdEncode, .cdDecode]

/-- The row of R47 with this opcode; none for the undefined opcodes of R50. -/
def Op.ofCode (c : Byte) : Option Op := Op.all.find? (fun o => o.code == c)

/-- The `nops` column of R47. -/
def Op.nops : Op → Nat
  | .baInit => 1
  | .baLen => 0
  | .baRead => 1
  | .baWrite => 1
  | .baIterStart => 0
  | .baIterNext => 0
  | .baDump => 0
  | .pkLe32 => 1
  | .pkFromle32 => 0
  | .pkConcat => 1
  | .frBuild => 1
  | .cmMap => 1
  | .pbLoad => 1
  | .pbDump => 0
  | .pbLsbrd => 1
  | .pbLsbwr => 1
  | .cvMaxtotal => 1
  | .cvMaxpay => 1
  | .cvImgok => 1
  | .cvPayok => 2
  | .cdEncode => 1
  | .cdDecode => 0

/-- R49: the geometry halves of an operand word, `w = A[63:32]`. -/
def geoWidth (a : Word) : HWord := a.extractLsb' 32 32

/-- R49: the geometry halves of an operand word, `h = A[31:0]`. -/
def geoHeight (a : Word) : HWord := a.extractLsb' 0 32

/-- R49: the operand word of a geometry. -/
def geoWord (w h : HWord) : Word := w ++ h

/-- The `dlen` column of R47, a function of operand `A`. -/
def Op.dlen (a : Word) : Op → Nat
  | .baInit => a.toNat
  | .baLen => 0
  | .baRead => 0
  | .baWrite => 0
  | .baIterStart => 0
  | .baIterNext => 0
  | .baDump => 0
  | .pkLe32 => 0
  | .pkFromle32 => 4
  | .pkConcat => a.toNat
  | .frBuild => a.toNat
  | .cmMap => 0
  | .pbLoad => 4 * (geoWidth a).toNat * (geoHeight a).toNat
  | .pbDump => 0
  | .pbLsbrd => 0
  | .pbLsbwr => 0
  | .cvMaxtotal => 0
  | .cvMaxpay => 0
  | .cvImgok => 0
  | .cvPayok => 0
  | .cdEncode => a.toNat
  | .cdDecode => 0

/-- The `v?` column of R47. -/
def Op.usesV : Op → Bool
  | .baInit => false
  | .baLen => false
  | .baRead => false
  | .baWrite => true
  | .baIterStart => false
  | .baIterNext => false
  | .baDump => false
  | .pkLe32 => false
  | .pkFromle32 => false
  | .pkConcat => false
  | .frBuild => false
  | .cmMap => false
  | .pbLoad => false
  | .pbDump => false
  | .pbLsbrd => false
  | .pbLsbwr => true
  | .cvMaxtotal => false
  | .cvMaxpay => false
  | .cvImgok => false
  | .cvPayok => false
  | .cdEncode => false
  | .cdDecode => false

/-- R48: the `match` word of a row, `opcode << 24`. -/
def Op.matchWord (o : Op) : HWord := o.code.setWidth 32 <<< 24

/-- R48: the `mask` word of a row. -/
def Op.maskWord (o : Op) : HWord := if o.usesV then 0xFF00FFFF else 0xFFFFFFFF

/-- R43: the `opcode` field `H[31:24]`. -/
def hdrOpcode (h : HWord) : Byte := h.extractLsb' 24 8

/-- R43: the `v` field `H[23:16]`. -/
def hdrV (h : HWord) : Byte := h.extractLsb' 16 8

/-- R43: the reserved field `H[15:0]`. -/
def hdrReserved (h : HWord) : BitVec 16 := h.extractLsb' 0 16

/-- R43, R51: a header of opcode `o` whose fields that must be 0 are 0. -/
def hdrOk (o : Op) (h : HWord) : Bool := hdrReserved h == 0 && (o.usesV || hdrV h == 0)

/-- R49: the command that an opcode, its `v`, its operand words and its data bytes stand for. The caller gives exactly
`dlen` data bytes; an operand word that the opcode does not have is not looked at. -/
def assemble (o : Op) (v : Byte) (a b : Word) (d : List Byte) : Instr :=
  match o with
  | .baInit => .baInit a d
  | .baLen => .baLen
  | .baRead => .baRead a
  | .baWrite => .baWrite v a
  | .baIterStart => .baIterStart
  | .baIterNext => .baIterNext
  | .baDump => .baDump
  | .pkLe32 => .pkLe32 a
  | .pkFromle32 => .pkFromle32 (d.getD 0 0) (d.getD 1 0) (d.getD 2 0) (d.getD 3 0)
  | .pkConcat => .pkConcat a d
  | .frBuild => .frBuild a d
  | .cmMap => .cmMap a
  | .pbLoad => .pbLoad (geoWidth a) (geoHeight a) d
  | .pbDump => .pbDump
  | .pbLsbrd => .pbLsbrd a
  | .pbLsbwr => .pbLsbwr v a
  | .cvMaxtotal => .cvMaxtotal (geoWidth a) (geoHeight a)
  | .cvMaxpay => .cvMaxpay (geoWidth a) (geoHeight a)
  | .cvImgok => .cvImgok (geoWidth a) (geoHeight a)
  | .cvPayok => .cvPayok (geoWidth a) (geoHeight a) b
  | .cdEncode => .cdEncode a d
  | .cdDecode => .cdDecode

/-- R45: a 64-bit operand word, 8 bytes little-endian. -/
def readWord (bs : List Byte) : Word := BitVec.ofNat 64 (leNat (bs.take 8))

/-- R45: after the 4 header bytes of a defined opcode, the operand words, then `dlen` data bytes. Every byte is read
before anything is checked, so an illegal command takes its whole length. -/
def decodeBody (o : Op) (h : HWord) (rest : List Byte) : Decoded :=
  if rest.length < 8 * o.nops then .incomplete
  else
    let a := readWord rest
    let b := readWord (rest.drop 8)
    let d := rest.drop (8 * o.nops)
    if d.length < o.dlen a then .incomplete
    else if hdrOk o h then
      .instr (assemble o (hdrV h) a b (d.take (o.dlen a))) (4 + 8 * o.nops + o.dlen a)
    else .illegal .reservedBits (4 + 8 * o.nops + o.dlen a)

/-- R45: the decoder. An undefined opcode takes its 4 header bytes only (R50). -/
def decode : List Byte → Decoded
  | h0 :: h1 :: h2 :: h3 :: rest =>
    let h : HWord := BitVec.ofNat 32 (leNat [h0, h1, h2, h3])
    match Op.ofCode (hdrOpcode h) with
    | none => .illegal .undefinedOpcode 4
    | some o => decodeBody o h rest
  | _ => .incomplete

/-! The encoder. -/

/-- The row of R47 of a command. -/
def Instr.op : Instr → Op
  | .baInit _ _ => .baInit
  | .baLen => .baLen
  | .baRead _ => .baRead
  | .baWrite _ _ => .baWrite
  | .baIterStart => .baIterStart
  | .baIterNext => .baIterNext
  | .baDump => .baDump
  | .pkLe32 _ => .pkLe32
  | .pkFromle32 _ _ _ _ => .pkFromle32
  | .pkConcat _ _ => .pkConcat
  | .frBuild _ _ => .frBuild
  | .cmMap _ => .cmMap
  | .pbLoad _ _ _ => .pbLoad
  | .pbDump => .pbDump
  | .pbLsbrd _ => .pbLsbrd
  | .pbLsbwr _ _ => .pbLsbwr
  | .cvMaxtotal _ _ => .cvMaxtotal
  | .cvMaxpay _ _ => .cvMaxpay
  | .cvImgok _ _ => .cvImgok
  | .cvPayok _ _ _ => .cvPayok
  | .cdEncode _ _ => .cdEncode
  | .cdDecode => .cdDecode

/-- The header field `v` of a command: 0 in every command but the two that use it (R43). -/
def Instr.v : Instr → Byte
  | .baInit _ _ => 0
  | .baLen => 0
  | .baRead _ => 0
  | .baWrite v _ => v
  | .baIterStart => 0
  | .baIterNext => 0
  | .baDump => 0
  | .pkLe32 _ => 0
  | .pkFromle32 _ _ _ _ => 0
  | .pkConcat _ _ => 0
  | .frBuild _ _ => 0
  | .cmMap _ => 0
  | .pbLoad _ _ _ => 0
  | .pbDump => 0
  | .pbLsbrd _ => 0
  | .pbLsbwr v _ => v
  | .cvMaxtotal _ _ => 0
  | .cvMaxpay _ _ => 0
  | .cvImgok _ _ => 0
  | .cvPayok _ _ _ => 0
  | .cdEncode _ _ => 0
  | .cdDecode => 0

/-- The operand words of a command, `A` first (R42). -/
def Instr.operands : Instr → List Word
  | .baInit a _ => [a]
  | .baLen => []
  | .baRead a => [a]
  | .baWrite _ a => [a]
  | .baIterStart => []
  | .baIterNext => []
  | .baDump => []
  | .pkLe32 a => [a]
  | .pkFromle32 _ _ _ _ => []
  | .pkConcat a _ => [a]
  | .frBuild a _ => [a]
  | .cmMap a => [a]
  | .pbLoad w h _ => [geoWord w h]
  | .pbDump => []
  | .pbLsbrd a => [a]
  | .pbLsbwr _ a => [a]
  | .cvMaxtotal w h => [geoWord w h]
  | .cvMaxpay w h => [geoWord w h]
  | .cvImgok w h => [geoWord w h]
  | .cvPayok w h b => [geoWord w h, b]
  | .cdEncode a _ => [a]
  | .cdDecode => []

/-- The data bytes of a command (R42). -/
def Instr.data : Instr → List Byte
  | .baInit _ d => d
  | .baLen => []
  | .baRead _ => []
  | .baWrite _ _ => []
  | .baIterStart => []
  | .baIterNext => []
  | .baDump => []
  | .pkLe32 _ => []
  | .pkFromle32 d0 d1 d2 d3 => [d0, d1, d2, d3]
  | .pkConcat _ d => d
  | .frBuild _ d => d
  | .cmMap _ => []
  | .pbLoad _ _ d => d
  | .pbDump => []
  | .pbLsbrd _ => []
  | .pbLsbwr _ _ => []
  | .cvMaxtotal _ _ => []
  | .cvMaxpay _ _ => []
  | .cvImgok _ _ => []
  | .cvPayok _ _ _ => []
  | .cdEncode _ d => d
  | .cdDecode => []

/-- The header word of a command (R43): `opcode[31:24] v[23:16] 0[15:0]`. -/
def Instr.header (i : Instr) : HWord := i.op.code ++ i.v ++ 0#16

/-- R45: the bytes of a command in wire order. -/
def encode (i : Instr) : List Byte :=
  leBytes 4 i.header.toNat ++ i.operands.flatMap (fun a => leBytes 8 a.toNat) ++ i.data

/-! A row of spec/opcode_table.json as bytes of the command stream. -/

/-- The bytes of one command whose first `nbits` bits are `w` and whose further bits are 0: what the decoder takes from
them padded with zeros to the longest command with zero operands, the 20 bytes of `CV_PAYOK` (notes/assumptions/11.md). -/
def tableBytes (nbits w : Nat) : List Byte :=
  let bs := leBytes (nbits / 8) w ++ List.replicate 20 0
  match decode bs with
  | .instr _ n => bs.take n
  | .illegal _ n => bs.take n
  | .incomplete => bs

/-- The instruction the decoder reads from a table row's bits. -/
def decodeTableWord (nbits w : Nat) : Option Instr :=
  match decode (tableBytes nbits w) with
  | .instr i _ => some i
  | .illegal _ _ => none
  | .incomplete => none

end Sys2Proof
end

