-- ==== Sys2Proof/Machine/Fetch.lean ====
section
/-! DEFINITION. How the block takes a command, a reset or nothing from its input (spec/30_encoding.md R45, R46,
spec/60_exceptions.md R100, spec/70_reset_and_hazards.md R101). -/

namespace Sys2Proof.Machine

/-- The bytes on the command stream before the next assertion of reset. -/
def leadingBytes : List HostInput → List Byte
  | .byte x :: r => x :: leadingBytes r
  | .reset :: _ => []
  | .resetInCommand :: _ => []
  | [] => []

/-- What the host does after the next assertion of reset, if there is one. -/
def afterReset : List HostInput → Option (List HostInput)
  | .byte _ :: r => afterReset r
  | .reset :: r => some r
  | .resetInCommand :: r => some r
  | [] => none

/-- R101: what the host does after a reset that falls in the command just taken, if the reset input is asserted while that
command executes or sends its response. -/
def cutBy : List HostInput → Option (List HostInput)
  | .resetInCommand :: r => some r
  | .reset :: _ => none
  | .byte _ :: _ => none
  | [] => none

/-- R45, R101: a whole command of `n` bytes is taken from the stream and runs to its response, unless reset falls in it:
then it is abandoned, its response is not sent and the registers take their reset values. -/
def takeCommand (n : Nat) (run : State → Result) (s : State) : Result :=
  match cutBy (s.inputs.drop n) with
  | some rest => .next (s.applyReset rest)
  | none => run (s.consume n)

/-- The IllegalCommand error of a header that is no legal encoding (R50, R51). -/
def illegalErr : Illegal → Err
  | .undefinedOpcode => .undefinedOpcode
  | .reservedBits => .reservedBits

/-- R50, R51: a command that is no legal encoding, already taken from the stream. -/
def takeIllegal (e : Illegal) (s : State) : Result := raise (illegalErr e) 0 s

/-- No whole command stands before the next reset. With a reset there, the command in progress is abandoned (R101);
without one the block waits, and waiting changes no state (R100; notes/assumptions/4.md). -/
def takeNone (s : State) : Result :=
  match afterReset s.inputs with
  | some rest => .next (s.applyReset rest)
  | none => .next s

/-- The input with no reset falling in a command put before it: a reset at its head comes after that command's response. -/
def settled : List HostInput → List HostInput
  | .resetInCommand :: r => .reset :: r
  | .reset :: r => .reset :: r
  | .byte x :: r => .byte x :: r
  | [] => []

/-- The bytes of a command put on the stream before everything else, to run to its response. -/
def State.offerBytes (s : State) (bs : List Byte) : State := { s with inputs := bs.map .byte ++ settled s.inputs }

end Sys2Proof.Machine
end

