-- ==== Sys2Proof/Machine/Step.lean ====
section
/-! DEFINITION. One step of the block: one whole command, or a reset, or a wait (spec/00_scope.md R10,
spec/30_encoding.md R45, spec/70_reset_and_hazards.md R101). -/

namespace Sys2Proof.Machine

/-- One step. A command's bytes are taken from the stream before it runs (R45), and a reset that falls in it abandons it
(R101). -/
def step (s : State) : Host.Outcome State Fault Refusal :=
  match decode (leadingBytes s.inputs) with
  | .instr i n => takeCommand n (exec i) s
  | .illegal e n => takeCommand n (takeIllegal e) s
  | .incomplete => takeNone s

/-- The command of a table word put where `step` takes its next command: at the head of the command stream. -/
def State.withFetchWord (s : State) (nbits w : Nat) : State := s.offerBytes (tableBytes nbits w)

end Sys2Proof.Machine
end

