-- ==== Sys2Proof/Safety.lean ====
section
/-! DEFINITION. What the claims of this model mean: the invariants of spec/10_state.md R24, a safe outcome, what an
observer of the block can and cannot see (spec/10_state.md R23), and a run of commands (spec/00_scope.md R10). -/

namespace Sys2Proof.Machine

/-- I4 of R24 and R17: the reserved bits are 0, `CODE` is a code the block writes, `CTX` is 0 when `CODE` is 0, and the
whole word is below 0x80. -/
def statusOk (st : HWord) : Prop :=
  st.toNat < 0x80 ∧
  ((statusCode st).toNat = 0 ∨ (statusCode st).toNat = 1 ∨ (statusCode st).toNat = 2 ∨ (statusCode st).toNat = 3 ∨
    (statusCode st).toNat = 6 ∨ (statusCode st).toNat = 7) ∧
  ((statusCode st).toNat = 0 → (statusCtx st).toNat = 0)

/-- The invariant of the block: R24 under the constraints of R6, and the canonical form and the size of both memories. -/
structure State.Inv (s : State) : Prop where
  /-- P1, P2 and P3 of R6. -/
  paramsOk : s.params.ok
  /-- I1 of R24. -/
  fbLenLe : s.fbLen.toNat ≤ s.params.fbMaxBytes
  /-- I2 of R24. -/
  iterLe : s.iter.toNat ≤ 8 * s.fbLen.toNat
  /-- I3 of R24. -/
  pbLenLe : 4 * s.width.toNat * s.height.toNat ≤ s.params.pbMaxBytes
  /-- I4 of R24, with R17. -/
  status : statusOk s.status
  /-- `FB` is in canonical form. -/
  fbWf : s.fb.wf = true
  /-- `PB` is in canonical form. -/
  pbWf : s.pb.wf = true
  /-- `FB` has `FB_MAX_BYTES` bytes (R26). -/
  fbBelow : s.fb.below s.params.fbMaxBytes = true
  /-- `PB` has `PB_MAX_BYTES` bytes (R26). -/
  pbBelow : s.pb.below s.params.pbMaxBytes = true

/-- Two memories hold the same bytes below `n`. -/
def Memory.agreeBelow (n : Nat) (m m' : Memory) : Prop := ∀ k, k < n → m.read k = m'.read k

/-- R23: two states that no observer can tell apart now or later: they differ at most in bytes of `FB` at or beyond
`FB_LEN` and bytes of `PB` at or beyond `PB_LEN`. -/
structure State.SameVisible (s t : State) : Prop where
  params : s.params = t.params
  status : s.status = t.status
  result : s.result = t.result
  fbLen : s.fbLen = t.fbLen
  iter : s.iter = t.iter
  width : s.width = t.width
  height : s.height = t.height
  inputs : s.inputs = t.inputs
  sent : s.sent = t.sent
  fb : Memory.agreeBelow s.fbLen.toNat s.fb t.fb
  pb : Memory.agreeBelow s.pbLen s.pb t.pb

/-- Everything a command that only answers leaves alone: all but `STATUS`, `RESULT` and the response. -/
structure State.SameButResponse (s t : State) : Prop where
  params : t.params = s.params
  fbLen : t.fbLen = s.fbLen
  iter : t.iter = s.iter
  width : t.width = s.width
  height : t.height = s.height
  inputs : t.inputs = s.inputs
  fb : ∀ k, t.fb.read k = s.fb.read k
  pb : ∀ k, t.pb.read k = s.pb.read k

/-- The command ended with this `STATUS`, `RESULT` and `OUT`, in the registers and in the one response sent (R44). -/
structure State.Answered (s t : State) (st : HWord) (r : Nat) (out : List Byte) : Prop where
  status : t.status = st
  result : t.result.toNat = r
  sent : t.sent = s.sent ++ [{ status := st, result := t.result, out := out }]

/-- R91: the state after an error with this `STATUS` and `RESULT`: `OUT` is empty and nothing else changes. -/
def State.afterError (s : State) (st : HWord) (r : Nat) : State :=
  { s with
    status := st
    result := BitVec.ofNat 64 r
    sent := s.sent ++ [{ status := st, result := BitVec.ofNat 64 r, out := [] }] }

/-- R10: a finite list of commands applied in order, stopping at the first stop. -/
def execAll : List Instr → State → Result
  | [], s => .next s
  | i :: is, s =>
    match exec i s with
    | .next t => execAll is t
    | .fault f => .fault f
    | .refused r => .refused r

/-- The commands a host that sends these commands puts on the stream (R45). -/
def commandStream (is : List Instr) : List HostInput := (is.flatMap encode).map .byte

end Sys2Proof.Machine
end

