-- ==== Sys2Proof/Certificates/Slice0/Obligations.lean ====
section
/-! DEFINITION. The statements for the provers. Each docstring says which rule of spec/ it formalises. -/

open Sys2Proof Sys2Proof.Machine

/-! Encoding. -/

/-- spec/95_test_vectors.md B15, K12, K5, M10, M11, V16, X10 and E1, E6, in wire order (R45): the bytes decode to the
command the vector names, or to the reason it is illegal. -/
def Obligations.SpecWordsDecodeAsListed : Prop :=
  decode [0x00, 0x00, 0xFE, 0x13, 7, 0, 0, 0, 0, 0, 0, 0] = .instr (.baWrite 0xFE 7) 12 ∧
  decode [0x00, 0x00, 0x00, 0x23, 2, 0, 0, 0, 0, 0, 0, 0, 0x48, 0x69] = .instr (.frBuild 2 [0x48, 0x69]) 14 ∧
  decode [0x00, 0x00, 0x00, 0x21, 2, 0, 0, 0] = .instr (.pkFromle32 2 0 0 0) 8 ∧
  decode [0x00, 0x00, 0x00, 0x30, 0, 0, 0, 0, 0, 0, 1, 0] = .instr (.cmMap 0x1000000000000) 12 ∧
  decode [0x00, 0x00, 0x00, 0x31, 1, 0, 0, 0, 1, 0, 0, 0, 0x10, 0x20, 0x30, 0x40] =
    .instr (.pbLoad 1 1 [0x10, 0x20, 0x30, 0x40]) 16 ∧
  decode [0x00, 0x00, 0x00, 0x43, 4, 0, 0, 0, 4, 0, 0, 0, 2, 0, 0, 0, 0, 0, 0, 0] = .instr (.cvPayok 4 4 2) 20 ∧
  decode [0x00, 0x00, 0x00, 0x51] = .instr .cdDecode 4 ∧
  decode [0x00, 0x00, 0x00, 0x00] = .illegal .undefinedOpcode 4 ∧
  decode [0x00, 0x00, 0x01, 0x12, 8, 0, 0, 0, 0, 0, 0, 0] = .illegal .reservedBits 12

/-- R45, R47, R49: the bytes of a well-formed command, whatever follows them, decode to that command and take exactly
its length. -/
def Obligations.DecodeOfEncodeIsTheCommand : Prop :=
  ∀ (i : Instr) (rest : List Byte), i.wf = true → decode (encode i ++ rest) = .instr i (encode i).length

/-- R42, R43, R45, R48: bytes that decode to a command are the encoding of that command, which is well-formed. -/
def Obligations.EncodeOfDecodeIsTheBytes : Prop :=
  ∀ (bs : List Byte) (i : Instr) (n : Nat), decode bs = .instr i n → i.wf = true ∧ bs.take n = encode i

/-- R48: a whole command is the command of row `o` exactly when `(H & mask) = match`, with `match = opcode << 24` and
`mask` 0xFF00FFFF for BA_WRITE and PB_LSBWR, 0xFFFFFFFF for the others; a whole command whose opcode is that of row `o`
and which fails the mask is an IllegalCommand. -/
def Obligations.HeaderSelectsByMatchAndMask : Prop :=
  ∀ (o : Op) (h0 h1 h2 h3 : Byte) (rest : List Byte), decode (h0 :: h1 :: h2 :: h3 :: rest) ≠ .incomplete →
    let hw : HWord := h3 ++ h2 ++ h1 ++ h0
    let mask : HWord := if o = .baWrite ∨ o = .pbLsbwr then 0xFF00FFFF else 0xFFFFFFFF
    ((∃ i n, decode (h0 :: h1 :: h2 :: h3 :: rest) = .instr i n ∧ i.op = o) ↔
      hw &&& mask = o.code.setWidth 32 <<< 24) ∧
    (h3 = o.code → hw &&& mask ≠ o.code.setWidth 32 <<< 24 →
      ∃ n, decode (h0 :: h1 :: h2 :: h3 :: rest) = .illegal .reservedBits n)

/-- R45: a response is 4 bytes, 8 bytes, 8 bytes and `OUT`, little-endian, so the bytes of the response stream tell the
responses apart: two lists of responses with the same bytes are the same list. -/
def Obligations.ResponseStreamIsUniquelyReadable : Prop :=
  (∀ r : Response, r.toBytes =
    leBytes 4 r.status.toNat ++ leBytes 8 r.result.toNat ++ leBytes 8 r.out.length ++ r.out) ∧
  ∀ rs qs : List Response, (∀ r ∈ rs, r.out.length < 2 ^ 64) → (∀ q ∈ qs, q.out.length < 2 ^ 64) →
    rs.flatMap Response.toBytes = qs.flatMap Response.toBytes → rs = qs

/-! The step. -/

/-- R45: when the bytes at the head of the command stream decode to a command of `n` bytes, it is well-formed, and the step
takes exactly `n` bytes and is that command's meaning; and so it is when they are the encoding of a well-formed command. A
command that a reset falls in is abandoned instead: `ResetAbandonsTheCommand`. -/
def Obligations.StepRunsTheDecodedCommand : Prop :=
  (∀ (s : State) (i : Instr) (n : Nat), decode (leadingBytes s.inputs) = .instr i n →
    i.wf = true ∧ n = (encode i).length ∧
    ((s.inputs.drop n).head? ≠ some .resetInCommand → step s = exec i { s with inputs := s.inputs.drop n })) ∧
  ∀ (s : State) (i : Instr) (rest : List HostInput), i.wf = true → s.inputs = (encode i).map .byte ++ rest →
    rest.head? ≠ some .resetInCommand → step s = exec i { s with inputs := rest }

/-- R50: every opcode outside R47, given by its ranges, takes its 4 header bytes, leaves IllegalCommand context 1
(STATUS 0x17) with RESULT 0, and changes nothing else (unless a reset falls in it: `ResetAbandonsTheCommand`). -/
def Obligations.UndefinedOpcodeRaises : Prop :=
  ∀ (s : State) (h0 h1 h2 h3 : Byte) (rest : List HostInput),
    s.inputs = .byte h0 :: .byte h1 :: .byte h2 :: .byte h3 :: rest → rest.head? ≠ some .resetInCommand →
    (h3.toNat ≤ 0x0F ∨ 0x17 ≤ h3.toNat ∧ h3.toNat ≤ 0x1F ∨ 0x24 ≤ h3.toNat ∧ h3.toNat ≤ 0x2F ∨
      0x35 ≤ h3.toNat ∧ h3.toNat ≤ 0x3F ∨ 0x44 ≤ h3.toNat ∧ h3.toNat ≤ 0x4F ∨ 0x52 ≤ h3.toNat) →
    step s = .next (State.afterError { s with inputs := rest } 0x17 0)

/-- R51: (a) a command with a defined opcode whose `H[15:0]` is not 0, or whose `H[23:16]` is not 0 and which is neither
BA_WRITE nor PB_LSBWR, raises context 2 (STATUS 0x27) whatever its operands, after its whole length is taken (unless a
reset falls in it: `ResetAbandonsTheCommand`); (b) PK_LE32
and FR_BUILD with `A >= 2^32` and CM_MAP with `A >= 2^48` raise context 3 (STATUS 0x37); (c) no other command with a legal
header leaves CODE 7. -/
def Obligations.IllegalHeadersAndOperandsRaise : Prop :=
  (∀ (s : State) (i : Instr) (hw : HWord) (rest : List HostInput), i.wf = true →
    hw.extractLsb' 24 8 = i.op.code →
    (hw.extractLsb' 0 16 ≠ 0 ∨ hw.extractLsb' 16 8 ≠ 0 ∧ i.op ≠ .baWrite ∧ i.op ≠ .pbLsbwr) →
    s.inputs = (leBytes 4 hw.toNat ++ (encode i).drop 4).map .byte ++ rest → rest.head? ≠ some .resetInCommand →
    step s = .next (State.afterError { s with inputs := rest } 0x27 0)) ∧
  (∀ (s : State) (a : Word), 2 ^ 32 ≤ a.toNat → exec (.pkLe32 a) s = .next (s.afterError 0x37 0)) ∧
  (∀ (s : State) (a : Word) (d : List Byte), d.length = a.toNat → 2 ^ 32 ≤ a.toNat →
    exec (.frBuild a d) s = .next (s.afterError 0x37 0)) ∧
  (∀ (s : State) (a : Word), 2 ^ 48 ≤ a.toNat → exec (.cmMap a) s = .next (s.afterError 0x37 0)) ∧
  ∀ (i : Instr) (s t : State), exec i s = .next t → (statusCode t.status).toNat = 7 →
    (∃ a, i = .pkLe32 a ∧ 2 ^ 32 ≤ a.toNat) ∨ (∃ a d, i = .frBuild a d ∧ 2 ^ 32 ≤ a.toNat) ∨
      (∃ a, i = .cmMap a ∧ 2 ^ 48 ≤ a.toNat)

/-- R45, R100: while bytes of a command are still to come and reset is not asserted, the block waits and its state does
not change. That a wait is a step that answers the same state is the model's reading (notes/assumptions/4.md). -/
def Obligations.PartialCommandWaits : Prop :=
  ∀ (s : State) (i : Instr) (k : Nat), i.wf = true → k < (encode i).length →
    s.inputs = ((encode i).take k).map .byte → step s = .next s

/-- R101: reset asserted (a) while bytes of a command are still to come, none having come among these (by
the decoder, and by the encoding of a legal command), (b) while a legal
command executes or answers, or (c) while one that is no legal encoding does, abandons the command without a response,
sets every register to its reset value, and frames the stream again from what follows; (d) asserted after the whole
response, it finds the command complete. How the input tells these apart is the model's choice
(notes/assumptions/5.md). -/
def Obligations.ResetAbandonsTheCommand : Prop :=
  (∀ (s : State) (rest : List HostInput),
    ((∃ bs : List Byte, (decode bs = .incomplete ∨
        ∃ (i : Instr) (k : Nat), i.wf = true ∧ k < (encode i).length ∧ bs = (encode i).take k) ∧
      (s.inputs = bs.map .byte ++ .reset :: rest ∨ s.inputs = bs.map .byte ++ .resetInCommand :: rest)) ∨
    (∃ i : Instr, i.wf = true ∧ s.inputs = (encode i).map .byte ++ .resetInCommand :: rest) ∨
    (∃ (bs : List Byte) (e : Illegal), decode bs = .illegal e bs.length ∧
      s.inputs = bs.map .byte ++ .resetInCommand :: rest)) →
    ∃ t, step s = .next t ∧ t.status = 0 ∧ t.result = 0 ∧ t.fbLen = 0 ∧ t.iter = 0 ∧ t.width = 0 ∧ t.height = 0 ∧
      t.pbLen = 0 ∧ t.inputs = rest ∧ t.sent = s.sent ∧ t.params = s.params) ∧
  ∀ (s : State) (i : Instr) (rest : List HostInput), i.wf = true →
    s.inputs = (encode i).map .byte ++ .reset :: rest → step s = exec i { s with inputs := .reset :: rest }

/-- R23, R24: for every choice of parameters that R6 allows, the state after reset has the register values of R23, an
empty BitArray and an empty carrier, and meets the invariant. -/
def Obligations.ResetMeetsTheInvariant : Prop :=
  ∀ p : Params, p.ok →
    (State.resetWith p).Inv ∧ (State.resetWith p).status = 0 ∧ (State.resetWith p).result = 0 ∧
    (State.resetWith p).fbLen = 0 ∧ (State.resetWith p).iter = 0 ∧ (State.resetWith p).width = 0 ∧
    (State.resetWith p).height = 0 ∧ (State.resetWith p).pbLen = 0 ∧ (State.resetWith p).sent = []

/-- R24, R6, R17, R26: every step from a state that meets the invariant, whatever the host sends, answers a state that
meets it. -/
def Obligations.StepKeepsTheInvariant : Prop :=
  ∀ s t : State, s.Inv → step s = .next t → t.Inv

/-- R10, R32, R92: from a state that meets the invariant a step always answers a next state, whatever the host sends: no
command touches a byte that `FB` or `PB` does not have, and no error stops the block. -/
def Obligations.StepNeverStops : Prop :=
  ∀ s : State, s.Inv → ∃ t, step s = .next t

/-- R42, R104, R26: where the meanings stop. A transaction that is not well-formed is refused by name, and only such a
one; a fault is raised only in a state that breaks the invariant. The model's choice (notes/assumptions/8.md, 9.md). -/
def Obligations.MeaningsStopOnlyOutsideTheSpec : Prop :=
  (∀ (i : Instr) (s : State), i.wf = false → exec i s = .refused .malformed) ∧
  (∀ (i : Instr) (s : State) (r : Refusal), exec i s = .refused r → i.wf = false) ∧
  (∀ (i : Instr) (s : State) (f : Fault), exec i s = .fault f → ¬ s.Inv)

/-- R23: the unspecified bytes of `FB` at or beyond `FB_LEN` and of `PB` at or beyond `PB_LEN` are never observed: two
states that differ only there step to states that differ only there, with the same responses. -/
def Obligations.UnspecifiedBytesAreNeverObserved : Prop :=
  ∀ s t s' : State, s.Inv → t.Inv → s.SameVisible t → step s = .next s' →
    ∃ t', step t = .next t' ∧ s'.SameVisible t'

/-- R10, R14, R38: commands on the stream run one a step, in the order the host sends them, each on the state the one
before left (where no reset falls in the last one). -/
def Obligations.StreamRunsCommandsInOrder : Prop :=
  ∀ (is : List Instr) (s : State) (rest : List HostInput), (∀ i ∈ is, i.wf = true) →
    s.inputs = commandStream is ++ rest → rest.head? ≠ some .resetInCommand →
    Host.Core.run Sys2Proof.core is.length s = execAll is { s with inputs := rest }

/-! Rules of the whole machine. -/

/-- R16: the reset values, and the commands that write each register: every command leaves the same state whatever
STATUS and RESULT held, and FB_LEN, ITER, WIDTH and HEIGHT change only under the commands listed. The parameters never
change. -/
def Obligations.RegistersWrittenOnlyByTheirCommands : Prop :=
  (∀ p, (State.resetWith p).status = 0x00000000 ∧ (State.resetWith p).result = 0x0000000000000000 ∧
    (State.resetWith p).fbLen = 0 ∧ (State.resetWith p).iter = 0 ∧ (State.resetWith p).width = 0 ∧
    (State.resetWith p).height = 0) ∧
  ∀ (i : Instr) (s t : State), exec i s = .next t →
    (∀ st r, exec i { s with status := st, result := r } = .next t) ∧
    (t.fbLen ≠ s.fbLen → i.op ∈ [Op.baInit, .pkConcat, .frBuild, .cdDecode]) ∧
    (t.iter ≠ s.iter → i.op ∈ [Op.baInit, .pkConcat, .frBuild, .cdDecode, .baIterStart, .baIterNext]) ∧
    (t.width ≠ s.width → i.op = .pbLoad) ∧
    (t.height ≠ s.height → i.op = .pbLoad) ∧
    t.params = s.params

/-- R26: FB is written only by BA_INIT, BA_WRITE, PK_CONCAT, FR_BUILD and CD_DECODE, and PB only by PB_LOAD, PB_LSBWR and
CD_ENCODE; for every other command every byte reads as before. -/
def Obligations.BuffersWrittenOnlyByTheirCommands : Prop :=
  ∀ (i : Instr) (s t : State), exec i s = .next t →
    (i.op ∉ [Op.baInit, .baWrite, .pkConcat, .frBuild, .cdDecode] → ∀ k, t.fb.read k = s.fb.read k) ∧
    (i.op ∉ [Op.pbLoad, .pbLsbwr, .cdEncode] → ∀ k, t.pb.read k = s.pb.read k) ∧
    t.inputs = s.inputs

/-- R22: no command reads STATUS or RESULT, and every command writes both. -/
def Obligations.NoCommandReadsTheOutcome : Prop :=
  ∀ (i : Instr) (s : State) (st : HWord) (r : Word), exec i { s with status := st, result := r } = exec i s

/-- R17: the words a command leaves in STATUS: CODE 0, 1, 2, 3, 6 or 7, CTX 0 when CODE is 0, the reserved bits 0, and
the word below 0x80. A command is a legal one, run by `exec`, or one that is no legal encoding, taken by `step`. -/
def Obligations.StatusHoldsOnlyListedValues : Prop :=
  ∀ s t : State,
    ((∃ i, exec i s = .next t) ∨ ∃ e n, decode (leadingBytes s.inputs) = .illegal e n ∧ step s = .next t) →
    t.status.toNat < 0x80 ∧ t.status.extractLsb' 8 24 = 0 ∧
    (t.status.extractLsb' 0 4 = 0 ∨ t.status.extractLsb' 0 4 = 1 ∨ t.status.extractLsb' 0 4 = 2 ∨
      t.status.extractLsb' 0 4 = 3 ∨ t.status.extractLsb' 0 4 = 6 ∨ t.status.extractLsb' 0 4 = 7) ∧
    (t.status.extractLsb' 0 4 = 0 → t.status.extractLsb' 4 4 = 0)

/-- R44: every command sends one response, of the STATUS and RESULT it leaves, and its OUT is empty for every command
other than BA_DUMP, PK_LE32 and PB_DUMP, and after every error. A command that is no legal encoding sends one too. A
command that a reset falls in sends none: `ResetAbandonsTheCommand`. -/
def Obligations.EveryCommandSendsOneResponse : Prop :=
  (∀ (i : Instr) (s t : State), exec i s = .next t →
    ∃ out, t.sent = s.sent ++ [{ status := t.status, result := t.result, out := out }] ∧
      (i.op ∉ [Op.baDump, .pkLe32, .pbDump] → out = []) ∧ (t.status ≠ 0 → out = [])) ∧
  ∀ (s : State) (e : Illegal) (n : Nat), decode (leadingBytes s.inputs) = .illegal e n →
    (s.inputs.drop n).head? ≠ some .resetInCommand →
    ∃ t, step s = .next t ∧ t.status ≠ 0 ∧
      t.sent = s.sent ++ [{ status := t.status, result := t.result, out := [] }]

/-- R91: a command that raises an error writes STATUS and RESULT, with the values of R88, sends its response with OUT
empty, and changes nothing else. (A command that is no legal encoding: R50 and R51.) -/
def Obligations.ErrorsChangeNothingElse : Prop :=
  ∀ (i : Instr) (s t : State), exec i s = .next t → t.status ≠ 0 →
    t.status ∈ [0x11#32, 0x21#32, 0x12#32, 0x22#32, 0x32#32, 0x42#32, 0x13#32, 0x23#32, 0x16#32, 0x26#32, 0x37#32] ∧
    (t.status = 0x32 ∨ t.status = 0x42 → t.result.toNat = maxTotal s.width s.height - 4) ∧
    (t.status = 0x23 → ∀ b, b < 64 →
      t.result.getLsbD b = (decide (b < 32) && (s.pb.read (offset b)).getLsbD 0)) ∧
    (t.status ≠ 0x32 → t.status ≠ 0x42 → t.status ≠ 0x23 → t.result = 0) ∧
    t = { s with
          status := t.status
          result := t.result
          sent := s.sent ++ [{ status := t.status, result := t.result, out := [] }] }

/-- R75: a command other than PB_LOAD changes no alpha byte of the carrier, and no bit other than bit 0 of any byte. -/
def Obligations.AlphaAndUpperBitsArePreserved : Prop :=
  ∀ (i : Instr) (s t : State), s.pb.wf = true → i.op ≠ .pbLoad → exec i s = .next t →
    (∀ o, o % 4 = 3 → t.pb.read o = s.pb.read o) ∧
    (∀ o k, k ≠ 0 → (t.pb.read o).getLsbD k = (s.pb.read o).getLsbD k)

/-! The BitArray commands. -/

/-- R54, BA_INIT. -/
def Obligations.BaInitBuildsTheBitArray : Prop :=
  ∀ (a : Word) (d : List Byte) (s : State), d.length = a.toNat →
    encode (.baInit a d) = [0, 0, 0, 0x10] ++ leBytes 8 a.toNat ++ d ∧
    (s.params.fbMaxBytes < a.toNat → exec (.baInit a d) s = .next (s.afterError 0x16 0)) ∧
    (s.Inv → a.toNat ≤ s.params.fbMaxBytes → ∃ t, exec (.baInit a d) s = .next t ∧
      s.Answered t 0 a.toNat [] ∧ t.fbLen.toNat = a.toNat ∧ t.iter = 0 ∧
      (∀ k (h : k < d.length), t.fb.read k = d[k]) ∧ (∀ k, d.length ≤ k → t.fb.read k = s.fb.read k) ∧
      t.params = s.params ∧ t.width = s.width ∧ t.height = s.height ∧ t.inputs = s.inputs ∧
      ∀ k, t.pb.read k = s.pb.read k)

/-- R55, BA_LEN. -/
def Obligations.BaLenReturnsTheBitLength : Prop :=
  encode .baLen = [0, 0, 0, 0x11] ∧
  ∀ s : State, s.Inv → ∃ t, exec .baLen s = .next t ∧ s.Answered t 0 (8 * s.fbLen.toNat) [] ∧ s.SameButResponse t

/-- R56, BA_READ. -/
def Obligations.BaReadReturnsOneBit : Prop :=
  ∀ (a : Word) (s : State),
    encode (.baRead a) = [0, 0, 0, 0x12] ++ leBytes 8 a.toNat ∧
    (a.toInt < 0 → exec (.baRead a) s = .next (s.afterError 0x11 0)) ∧
    (0 ≤ a.toInt → (8 * s.fbLen.toNat : Int) ≤ a.toInt → exec (.baRead a) s = .next (s.afterError 0x21 0)) ∧
    (s.Inv → 0 ≤ a.toInt → a.toInt < 8 * s.fbLen.toNat → ∃ t, exec (.baRead a) s = .next t ∧
      s.Answered t 0 (((s.fb.read (a.toNat / 8)).toNat >>> (a.toNat % 8)) &&& 1) [] ∧ s.SameButResponse t)

/-- R57, BA_WRITE. -/
def Obligations.BaWriteSetsOneBit : Prop :=
  ∀ (v : Byte) (a : Word) (s : State),
    encode (.baWrite v a) = [0, 0, v, 0x13] ++ leBytes 8 a.toNat ∧
    (a.toInt < 0 → exec (.baWrite v a) s = .next (s.afterError 0x11 0)) ∧
    (0 ≤ a.toInt → (8 * s.fbLen.toNat : Int) ≤ a.toInt → exec (.baWrite v a) s = .next (s.afterError 0x21 0)) ∧
    (s.Inv → 0 ≤ a.toInt → a.toInt < 8 * s.fbLen.toNat → ∃ t, exec (.baWrite v a) s = .next t ∧
      s.Answered t 0 0 [] ∧
      (t.fb.read (a.toNat / 8)).getLsbD (a.toNat % 8) = v.getLsbD 0 ∧
      (∀ k, k ≠ a.toNat % 8 → (t.fb.read (a.toNat / 8)).getLsbD k = (s.fb.read (a.toNat / 8)).getLsbD k) ∧
      (∀ j, j ≠ a.toNat / 8 → t.fb.read j = s.fb.read j) ∧
      t.params = s.params ∧ t.fbLen = s.fbLen ∧ t.iter = s.iter ∧ t.width = s.width ∧ t.height = s.height ∧
      t.inputs = s.inputs ∧ ∀ k, t.pb.read k = s.pb.read k)

/-- R58, BA_ITER_START. -/
def Obligations.BaIterStartRewinds : Prop :=
  encode .baIterStart = [0, 0, 0, 0x14] ∧
  ∀ s : State, ∃ t, exec .baIterStart s = .next t ∧ s.Answered t 0 0 [] ∧ t.iter = 0 ∧
    t.params = s.params ∧ t.fbLen = s.fbLen ∧ t.width = s.width ∧ t.height = s.height ∧ t.inputs = s.inputs ∧
    (∀ k, t.fb.read k = s.fb.read k) ∧ ∀ k, t.pb.read k = s.pb.read k

/-- R59, BA_ITER_NEXT: the bit under the cursor, read live, or the end marker 2. -/
def Obligations.BaIterNextProducesTheNextBit : Prop :=
  encode .baIterNext = [0, 0, 0, 0x15] ∧
  ∀ s : State,
    (8 * s.fbLen.toNat ≤ s.iter.toNat → ∃ t, exec .baIterNext s = .next t ∧
      s.Answered t 0 2 [] ∧ s.SameButResponse t) ∧
    (s.Inv → s.iter.toNat < 8 * s.fbLen.toNat → ∃ t, exec .baIterNext s = .next t ∧
      s.Answered t 0 (((s.fb.read (s.iter.toNat / 8)).toNat >>> (s.iter.toNat % 8)) &&& 1) [] ∧
      t.iter.toNat = s.iter.toNat + 1 ∧
      t.params = s.params ∧ t.fbLen = s.fbLen ∧ t.width = s.width ∧ t.height = s.height ∧ t.inputs = s.inputs ∧
      (∀ k, t.fb.read k = s.fb.read k) ∧ ∀ k, t.pb.read k = s.pb.read k)

/-- R60, BA_DUMP. -/
def Obligations.BaDumpSendsTheBuffer : Prop :=
  encode .baDump = [0, 0, 0, 0x16] ∧
  ∀ s : State, s.Inv → ∃ t out, exec .baDump s = .next t ∧ s.Answered t 0 s.fbLen.toNat out ∧
    out.length = s.fbLen.toNat ∧ (∀ k (h : k < out.length), out[k] = s.fb.read k) ∧ s.SameButResponse t

/-! Packing and frames. -/

/-- R63, PK_LE32: byte `k` of OUT is `(value >> 8k) & 0xFF`. -/
def Obligations.PkLe32GivesLittleEndianBytes : Prop :=
  ∀ (a : Word) (s : State),
    encode (.pkLe32 a) = [0, 0, 0, 0x20] ++ leBytes 8 a.toNat ∧
    (2 ^ 32 ≤ a.toNat → exec (.pkLe32 a) s = .next (s.afterError 0x37 0)) ∧
    (a.toNat < 2 ^ 32 → ∃ t, exec (.pkLe32 a) s = .next t ∧
      s.Answered t 0 4 [BitVec.ofNat 8 a.toNat, BitVec.ofNat 8 (a.toNat >>> 8), BitVec.ofNat 8 (a.toNat >>> 16),
        BitVec.ofNat 8 (a.toNat >>> 24)] ∧ s.SameButResponse t)

/-- R64, PK_FROMLE32, and that it takes back what PK_LE32 gives. -/
def Obligations.PkFromle32ReadsLittleEndian : Prop :=
  (∀ (d0 d1 d2 d3 : Byte) (s : State),
    encode (.pkFromle32 d0 d1 d2 d3) = [0, 0, 0, 0x21, d0, d1, d2, d3] ∧
    ∃ t, exec (.pkFromle32 d0 d1 d2 d3) s = .next t ∧
      s.Answered t 0 (d0.toNat ||| d1.toNat <<< 8 ||| d2.toNat <<< 16 ||| d3.toNat <<< 24) [] ∧
      t.result.toNat < 2 ^ 32 ∧ s.SameButResponse t) ∧
  (∀ (a : Word) (s t u : State) (b0 b1 b2 b3 : Byte), exec (.pkLe32 a) s = .next t →
    t.sent = s.sent ++ [{ status := 0, result := 4, out := [b0, b1, b2, b3] }] →
    exec (.pkFromle32 b0 b1 b2 b3) t = .next u → u.result = a)

/-- R65, PK_CONCAT. -/
def Obligations.PkConcatAppends : Prop :=
  ∀ (a : Word) (d : List Byte) (s : State), d.length = a.toNat →
    encode (.pkConcat a d) = [0, 0, 0, 0x22] ++ leBytes 8 a.toNat ++ d ∧
    (s.params.fbMaxBytes < s.fbLen.toNat + a.toNat → exec (.pkConcat a d) s = .next (s.afterError 0x16 0)) ∧
    (s.Inv → s.fbLen.toNat + a.toNat ≤ s.params.fbMaxBytes → ∃ t, exec (.pkConcat a d) s = .next t ∧
      s.Answered t 0 (s.fbLen.toNat + a.toNat) [] ∧ t.fbLen.toNat = s.fbLen.toNat + a.toNat ∧ t.iter = 0 ∧
      (∀ k (h : k < d.length), t.fb.read (s.fbLen.toNat + k) = d[k]) ∧
      (∀ k, k < s.fbLen.toNat ∨ s.fbLen.toNat + d.length ≤ k → t.fb.read k = s.fb.read k) ∧
      t.params = s.params ∧ t.width = s.width ∧ t.height = s.height ∧ t.inputs = s.inputs ∧
      ∀ k, t.pb.read k = s.pb.read k)

/-- R66, FR_BUILD: the header bytes, the payload bytes, the errors, and that the result is that of BA_INIT with the bytes
of PK_LE32 followed by PK_CONCAT. -/
def Obligations.FrBuildBuildsTheFrame : Prop :=
  ∀ (a : Word) (d : List Byte) (s : State), d.length = a.toNat →
    encode (.frBuild a d) = [0, 0, 0, 0x23] ++ leBytes 8 a.toNat ++ d ∧
    (2 ^ 32 ≤ a.toNat → exec (.frBuild a d) s = .next (s.afterError 0x37 0)) ∧
    (a.toNat < 2 ^ 32 → s.params.fbMaxBytes < 4 + a.toNat →
      exec (.frBuild a d) s = .next (s.afterError 0x16 0)) ∧
    (s.Inv → a.toNat < 2 ^ 32 → 4 + a.toNat ≤ s.params.fbMaxBytes → ∃ t, exec (.frBuild a d) s = .next t ∧
      s.Answered t 0 (4 + a.toNat) [] ∧ t.fbLen.toNat = 4 + a.toNat ∧ t.iter = 0 ∧
      (∀ k, k < 4 → t.fb.read k = BitVec.ofNat 8 (a.toNat >>> (8 * k))) ∧
      (∀ k (h : k < d.length), t.fb.read (4 + k) = d[k]) ∧
      (∀ k, 4 + d.length ≤ k → t.fb.read k = s.fb.read k) ∧
      t.params = s.params ∧ t.width = s.width ∧ t.height = s.height ∧ t.inputs = s.inputs ∧
      (∀ k, t.pb.read k = s.pb.read k) ∧
      ∃ u, execAll [.baInit 4 (leBytes 4 a.toNat), .pkConcat a d] s = .next u ∧
        u.fb = t.fb ∧ u.fbLen = t.fbLen ∧ u.iter = t.iter ∧ u.result = t.result ∧ u.status = t.status)

/-- R67: the bits of the frame FR_BUILD builds, and that iteration produces them in this order. -/
def Obligations.FrameBitsAreHeaderThenPayload : Prop :=
  ∀ (a : Word) (d : List Byte) (s t : State), s.Inv → d.length = a.toNat → exec (.frBuild a d) s = .next t →
    t.status = 0 →
    (∀ b, b < 32 → t.fb.bit b = a.toNat.testBit b) ∧
    (∀ b (h : (b - 32) / 8 < d.length), 32 ≤ b →
      t.fb.bit b = (d[(b - 32) / 8]).getLsbD ((b - 32) % 8)) ∧
    ∃ u, execAll (List.replicate (8 * (4 + a.toNat)) .baIterNext) t = .next u ∧
      u.sent = t.sent ++ (List.range (8 * (4 + a.toNat))).map
        (fun b => { status := 0, result := BitVec.ofNat 64 (t.fb.bit b).toNat, out := [] })

/-! Channel mapper and carrier. -/

/-- R69, M1 to M5. -/
def Obligations.OffsetSkipsAlpha : Prop :=
  (∀ b, offset b % 4 = b % 3 ∧ offset b % 4 ≠ 3) ∧
  (∀ b, (b % 3 = 0 ∨ b % 3 = 1 → offset (b + 1) = offset b + 1) ∧ (b % 3 = 2 → offset (b + 1) = offset b + 2)) ∧
  (∀ b c, b < c → offset b < offset c) ∧ (∀ b c, offset b = offset c → b = c) ∧
  (∀ o, (∃ b, offset b = o) ↔ o % 4 ≠ 3) ∧ (∀ b, b = 3 * (offset b / 4) + offset b % 4) ∧
  (∀ p b, offset b < 4 * p ↔ b < 3 * p) ∧
  (∀ p, offset (3 * p) = 4 * p ∧ offset (3 * p + 1) = 4 * p + 1 ∧ offset (3 * p + 2) = 4 * p + 2)

/-- R70, CM_MAP. -/
def Obligations.CmMapReturnsTheOffset : Prop :=
  ∀ (a : Word) (s : State),
    encode (.cmMap a) = [0, 0, 0, 0x30] ++ leBytes 8 a.toNat ∧
    (2 ^ 48 ≤ a.toNat → exec (.cmMap a) s = .next (s.afterError 0x37 0)) ∧
    (a.toNat < 2 ^ 48 → ∃ t, exec (.cmMap a) s = .next t ∧
      s.Answered t 0 (4 * (a.toNat / 3) + a.toNat % 3) [] ∧ t.result.toNat < 2 ^ 50 ∧ s.SameButResponse t)

/-- R71, PB_LOAD. -/
def Obligations.PbLoadCopiesTheRaster : Prop :=
  ∀ (w h : HWord) (d : List Byte) (s : State), d.length = 4 * w.toNat * h.toNat →
    encode (.pbLoad w h d) = [0, 0, 0, 0x31] ++ leBytes 4 h.toNat ++ leBytes 4 w.toNat ++ d ∧
    (s.params.pbMaxBytes < 4 * w.toNat * h.toNat → exec (.pbLoad w h d) s = .next (s.afterError 0x26 0)) ∧
    (s.Inv → 4 * w.toNat * h.toNat ≤ s.params.pbMaxBytes → ∃ t, exec (.pbLoad w h d) s = .next t ∧
      s.Answered t 0 (4 * w.toNat * h.toNat) [] ∧ t.width = w ∧ t.height = h ∧
      (∀ k (h : k < d.length), t.pb.read k = d[k]) ∧ (∀ k, d.length ≤ k → t.pb.read k = s.pb.read k) ∧
      t.params = s.params ∧ t.fbLen = s.fbLen ∧ t.iter = s.iter ∧ t.inputs = s.inputs ∧
      ∀ k, t.fb.read k = s.fb.read k)

/-- R72, PB_DUMP. -/
def Obligations.PbDumpSendsTheCarrier : Prop :=
  encode .pbDump = [0, 0, 0, 0x32] ∧
  ∀ s : State, s.Inv → ∃ t out, exec .pbDump s = .next t ∧
    s.Answered t 0 (s.width.toNat * 2 ^ 32 + s.height.toNat) out ∧
    out.length = 4 * s.width.toNat * s.height.toNat ∧ (∀ k (h : k < out.length), out[k] = s.pb.read k) ∧
    s.SameButResponse t

/-- R73, PB_LSBRD. -/
def Obligations.PbLsbrdReadsTheCarrierBit : Prop :=
  ∀ (a : Word) (s : State),
    encode (.pbLsbrd a) = [0, 0, 0, 0x33] ++ leBytes 8 a.toNat ∧
    (3 * s.width.toNat * s.height.toNat ≤ a.toNat → exec (.pbLsbrd a) s = .next (s.afterError 0x21 0)) ∧
    (s.Inv → a.toNat < 3 * s.width.toNat * s.height.toNat → ∃ t, exec (.pbLsbrd a) s = .next t ∧
      s.Answered t 0 ((s.pb.read (offset a.toNat)).toNat &&& 1) [] ∧ s.SameButResponse t)

/-- R74, PB_LSBWR. -/
def Obligations.PbLsbwrWritesTheCarrierBit : Prop :=
  ∀ (v : Byte) (a : Word) (s : State),
    encode (.pbLsbwr v a) = [0, 0, v, 0x34] ++ leBytes 8 a.toNat ∧
    (3 * s.width.toNat * s.height.toNat ≤ a.toNat → exec (.pbLsbwr v a) s = .next (s.afterError 0x21 0)) ∧
    (s.Inv → a.toNat < 3 * s.width.toNat * s.height.toNat → ∃ t, exec (.pbLsbwr v a) s = .next t ∧
      s.Answered t 0 0 [] ∧
      t.pb.read (offset a.toNat) = (s.pb.read (offset a.toNat) &&& 0xFE) ||| (v &&& 1) ∧
      (∀ o, o ≠ offset a.toNat → t.pb.read o = s.pb.read o) ∧
      t.params = s.params ∧ t.fbLen = s.fbLen ∧ t.iter = s.iter ∧ t.width = s.width ∧ t.height = s.height ∧
      t.inputs = s.inputs ∧ ∀ k, t.fb.read k = s.fb.read k)

/-! Capacity. -/

/-- R77, K1 to K7. -/
def Obligations.CapacityConsequences : Prop :=
  (∀ w h : HWord, imgOk w h = true ↔ 14 ≤ w.toNat * h.toNat) ∧
  (∀ (w h : HWord) (n : Nat), payOk w h n = true → imgOk w h = true) ∧
  (∀ w h : HWord, imgOk w h = true → 1 ≤ maxTotal w h - 4 ∧ payOk w h (maxTotal w h - 4) = true ∧ payOk w h (maxTotal w h - 3) = false ∧
    ∀ n, payOk w h n = true → n ≤ maxTotal w h - 4) ∧
  (usableBits 1 1 = 3 ∧ maxTotal 1 1 = 0 ∧ maxPayload 1 1 = -4 ∧ imgOk 1 1 = false) ∧
  (usableBits 4 4 = 48 ∧ maxTotal 4 4 = 6 ∧ maxPayload 4 4 = 2) ∧
  (∀ w h : HWord, payOk w h 0 = false) ∧
  (∀ (w h : HWord) (n : Nat), payOk w h n = true → 8 * (4 + n) ≤ 3 * w.toNat * h.toNat)

/-- R78, CV_MAXTOTAL. -/
def Obligations.CvMaxtotalReturnsMt : Prop :=
  ∀ (w h : HWord) (s : State),
    encode (.cvMaxtotal w h) = [0, 0, 0, 0x40] ++ leBytes 4 h.toNat ++ leBytes 4 w.toNat ∧
    ∃ t, exec (.cvMaxtotal w h) s = .next t ∧ s.Answered t 0 (3 * w.toNat * h.toNat / 8) [] ∧ s.SameButResponse t

/-- R79, CV_MAXPAY: the signed value of RESULT is `mt(w, h) - 4`. -/
def Obligations.CvMaxpayReturnsTheSignedDifference : Prop :=
  ∀ (w h : HWord) (s : State),
    encode (.cvMaxpay w h) = [0, 0, 0, 0x41] ++ leBytes 4 h.toNat ++ leBytes 4 w.toNat ∧
    ∃ t, exec (.cvMaxpay w h) s = .next t ∧ t.result.toInt = (3 * w.toNat * h.toNat / 8 : Nat) - 4 ∧
      s.Answered t 0 t.result.toNat [] ∧ s.SameButResponse t

/-- R80, CV_IMGOK. -/
def Obligations.CvImgokTellsValidImages : Prop :=
  ∀ (w h : HWord) (s : State),
    encode (.cvImgok w h) = [0, 0, 0, 0x42] ++ leBytes 4 h.toNat ++ leBytes 4 w.toNat ∧
    ∃ t, exec (.cvImgok w h) s = .next t ∧
      s.Answered t 0 (if 3 * w.toNat * h.toNat / 8 > 4 then 1 else 0) [] ∧ s.SameButResponse t

/-- R81, CV_PAYOK. -/
def Obligations.CvPayokTellsValidPayloads : Prop :=
  ∀ (w h : HWord) (b : Word) (s : State),
    encode (.cvPayok w h b) = [0, 0, 0, 0x43] ++ leBytes 4 h.toNat ++ leBytes 4 w.toNat ++ leBytes 8 b.toNat ∧
    ∃ t, exec (.cvPayok w h b) s = .next t ∧
      s.Answered t 0 (if 0 < b.toNat ∧ b.toNat + 4 ≤ 3 * w.toNat * h.toNat / 8 then 1 else 0) [] ∧
      s.SameButResponse t

/-! Codec. -/

/-- R83, CD_ENCODE: the three errors in their order, and on success the LSB at every mapped frame bit, the other bits and
bytes as before. Frame bit `b` is bit `b` of `n` for `b < 32`, then the payload bits (R30). -/
def Obligations.CdEncodeEmbedsTheFrame : Prop :=
  ∀ (a : Word) (d : List Byte) (s : State), d.length = a.toNat →
    let m := 3 * s.width.toNat * s.height.toNat / 8
    encode (.cdEncode a d) = [0, 0, 0, 0x50] ++ leBytes 8 a.toNat ++ d ∧
    (m ≤ 4 → exec (.cdEncode a d) s = .next (s.afterError 0x12 0)) ∧
    (4 < m → a.toNat = 0 → exec (.cdEncode a d) s = .next (s.afterError 0x42 (m - 4))) ∧
    (4 < m → a.toNat ≠ 0 → m - 4 < a.toNat → exec (.cdEncode a d) s = .next (s.afterError 0x32 (m - 4))) ∧
    (s.Inv → 4 < m → a.toNat ≠ 0 → a.toNat ≤ m - 4 → ∃ t, exec (.cdEncode a d) s = .next t ∧
      s.Answered t 0 (4 + a.toNat) [] ∧
      (∀ b, b < 32 → (t.pb.read (offset b)).getLsbD 0 = a.toNat.testBit b) ∧
      (∀ b (h : (b - 32) / 8 < d.length), 32 ≤ b →
        (t.pb.read (offset b)).getLsbD 0 = (d[(b - 32) / 8]).getLsbD ((b - 32) % 8)) ∧
      (∀ o k, k ≠ 0 → (t.pb.read o).getLsbD k = (s.pb.read o).getLsbD k) ∧
      (∀ o, (∀ b, b < 8 * (4 + a.toNat) → o ≠ offset b) → t.pb.read o = s.pb.read o) ∧
      t.params = s.params ∧ t.fbLen = s.fbLen ∧ t.iter = s.iter ∧ t.width = s.width ∧ t.height = s.height ∧
      t.inputs = s.inputs ∧ ∀ k, t.fb.read k = s.fb.read k)

/-- R84, CD_DECODE: the header is the number whose bit `b` is the carrier bit `b`, `b < 32`; the three errors in their
order; on success byte `j` of FB has bit `k` of the carrier bit `32 + 8j + k`. -/
def Obligations.CdDecodeExtractsThePayload : Prop :=
  encode .cdDecode = [0, 0, 0, 0x51] ∧
  ∀ (s : State) (n : Nat), n < 2 ^ 32 → (∀ b, b < 32 → n.testBit b = (s.pb.read (offset b)).getLsbD 0) →
    let m := 3 * s.width.toNat * s.height.toNat / 8
    (m ≤ 4 → exec .cdDecode s = .next (s.afterError 0x22 0)) ∧
    (s.Inv → 4 < m → n = 0 → exec .cdDecode s = .next (s.afterError 0x13 0)) ∧
    (s.Inv → 4 < m → n ≠ 0 → m - 4 < n → exec .cdDecode s = .next (s.afterError 0x23 n)) ∧
    (s.Inv → 4 < m → n ≠ 0 → n ≤ m - 4 → ∃ t, exec .cdDecode s = .next t ∧
      s.Answered t 0 n [] ∧ t.fbLen.toNat = n ∧ t.iter = 0 ∧
      (∀ j k, j < n → k < 8 → (t.fb.read j).getLsbD k = (s.pb.read (offset (32 + 8 * j + k))).getLsbD 0) ∧
      (∀ j, n ≤ j → t.fb.read j = s.fb.read j) ∧
      t.params = s.params ∧ t.width = s.width ∧ t.height = s.height ∧ t.inputs = s.inputs ∧
      ∀ k, t.pb.read k = s.pb.read k)

/-! Laws. -/

/-- R61 L1 and L2: BA_READ right after BA_WRITE at the same index returns the bit written, and at another index what it
returned before. -/
def Obligations.BitReadAfterBitWrite : Prop :=
  ∀ (v : Byte) (a a' : Word) (s t : State), s.Inv →
    0 ≤ a.toInt → a.toInt < 8 * s.fbLen.toNat → exec (.baWrite v a) s = .next t →
    (∃ u, exec (.baRead a) t = .next u ∧ u.result = v.setWidth 64 &&& 1) ∧
    (0 ≤ a'.toInt → a'.toInt < 8 * s.fbLen.toNat → a' ≠ a →
      ∃ u u', exec (.baRead a') t = .next u ∧ exec (.baRead a') s = .next u' ∧ u.result = u'.result)

/-- R61 L3 and L4: BA_ITER_START and then `8L` BA_ITER_NEXT return the bits that BA_READ returns, in ascending order, and
then 2, and doing it twice returns the same sequence twice. -/
def Obligations.IterationReturnsTheBitsInOrder : Prop :=
  ∀ s : State, s.Inv →
    let is : List Instr := .baIterStart :: List.replicate (8 * s.fbLen.toNat + 1) .baIterNext
    let rs : List Response :=
      { status := 0, result := 0, out := [] } ::
        ((List.range (8 * s.fbLen.toNat)).map fun b =>
          { status := 0, result := BitVec.ofNat 64 (s.fb.bit b).toNat, out := [] }) ++
        [{ status := 0, result := 2, out := [] }]
    (∀ b, b < 8 * s.fbLen.toNat → b < 2 ^ 63 → ∃ u, exec (.baRead (BitVec.ofNat 64 b)) s = .next u ∧
      u.result = BitVec.ofNat 64 (s.fb.bit b).toNat) ∧
    (∃ t, execAll is s = .next t ∧ t.sent = s.sent ++ rs ∧ ∀ k, t.fb.read k = s.fb.read k) ∧
    ∃ t, execAll (is ++ is) s = .next t ∧ t.sent = s.sent ++ rs ++ rs

/-- R85: a payload that fits, encoded and, after any commands that do not write the carrier, decoded, comes back whole. -/
def Obligations.DecodeReturnsTheEncodedPayload : Prop :=
  ∀ (a : Word) (d : List Byte) (is : List Instr) (s t' : State), s.Inv → d.length = a.toNat →
    1 ≤ a.toNat → a.toNat ≤ 3 * s.width.toNat * s.height.toNat / 8 - 4 →
    (∀ i ∈ is, i.op ∉ [Op.pbLoad, .pbLsbwr, .cdEncode]) →
    execAll (.cdEncode a d :: is) s = .next t' →
    (∃ t, exec (.cdEncode a d) s = .next t ∧ t.status = 0) ∧
    ∃ u, exec .cdDecode t' = .next u ∧ u.status = 0 ∧ u.result = a ∧ u.fbLen = a ∧
      ∀ j (h : j < d.length), u.fb.read j = d[j]

/-- R25, R86 E5: the outcome of CD_ENCODE and CD_DECODE depends only on the command, WIDTH, HEIGHT and PB (and the block's
parameters): never on FB, FB_LEN, ITER, STATUS or RESULT. -/
def Obligations.CodecDependsOnlyOnTheCarrier : Prop :=
  ∀ s t : State, s.params = t.params → s.width = t.width → s.height = t.height → s.pb = t.pb →
    (∀ (a : Word) (d : List Byte) (s' : State), exec (.cdEncode a d) s = .next s' →
      ∃ t', exec (.cdEncode a d) t = .next t' ∧ t'.status = s'.status ∧ t'.result = s'.result ∧ t'.pb = s'.pb) ∧
    (∀ s' : State, s.fb.wf = true → t.fb.wf = true → exec .cdDecode s = .next s' →
      ∃ t', exec .cdDecode t = .next t' ∧ t'.status = s'.status ∧ t'.result = s'.result ∧ t'.pb = s'.pb ∧
        (s'.status = 0 → t'.fbLen = s'.fbLen ∧ ∀ k, k < s'.fbLen.toNat → t'.fb.read k = s'.fb.read k))
end

