-- ==== Sys2Proof/Laws/Bytes.lean ====
section
/-! SUPPORT. Laws of byte sequences and bits of bytes. -/

namespace Sys2Proof

@[simp] theorem leBytes_length (n v : Nat) : (leBytes n v).length = n := by
  induction n generalizing v with
  | zero => rfl
  | succ n ih => simp [leBytes, ih]

theorem leNat_lt (bs : List Byte) : leNat bs < 256 ^ bs.length := by
  induction bs with
  | nil => simp [leNat]
  | cons x xs ih =>
    have hx := x.isLt
    simp only [leNat, List.length_cons, pow_succ]
    omega

theorem leNat_leBytes (n v : Nat) : leNat (leBytes n v) = v % 256 ^ n := by
  induction n generalizing v with
  | zero => simp [leBytes, leNat, Nat.mod_one]
  | succ n ih =>
    have h : 256 ^ (n + 1) = 256 * 256 ^ n := pow_succ' 256 n
    have h8 : (BitVec.ofNat 8 v).toNat = v % 256 := BitVec.toNat_ofNat v 8
    rw [leBytes, leNat, ih, h8, h, Nat.mod_mul]

theorem leBytes_leNat (bs : List Byte) : leBytes bs.length (leNat bs) = bs := by
  induction bs with
  | nil => rfl
  | cons x xs ih =>
    have hx := x.isLt
    have h1 : (x.toNat + 256 * leNat xs) / 256 = leNat xs := by omega
    have h2 : BitVec.ofNat 8 (x.toNat + 256 * leNat xs) = x := by
      apply BitVec.eq_of_toNat_eq
      rw [BitVec.toNat_ofNat]
      omega
    simp [leBytes, leNat, h1, h2, ih]

/-- R29: byte `k` of the little-endian bytes of `v` is `(v >> 8k) & 0xFF`. -/
theorem leBytes_getElem (n v k : Nat) (h : k < (leBytes n v).length) :
    (leBytes n v)[k] = BitVec.ofNat 8 (v >>> (8 * k)) := by
  induction n generalizing v k with
  | zero => simp at h
  | succ n ih =>
    cases k with
    | zero => simp [leBytes]
    | succ k =>
      simp only [leBytes, List.getElem_cons_succ]
      rw [ih, show v / 256 = v >>> 8 by rw [Nat.shiftRight_eq_div_pow], ← Nat.shiftRight_add]
      congr 2
      omega

/-- R34: the bit written is the bit read. -/
@[simp] theorem byteBit_setByteBit_same (x : Byte) (k : Nat) (d : Bool) (h : k < 8) :
    byteBit (setByteBit x k d) k = d := by
  simp only [byteBit, setByteBit, BitVec.getLsbD_or, BitVec.getLsbD_and, BitVec.getLsbD_not,
    BitVec.getLsbD_shiftLeft, BitVec.getLsbD_setWidth, BitVec.getLsbD_ofBool, BitVec.getLsbD_one]
  simp [h]

/-- R34: no other bit changes. -/
theorem byteBit_setByteBit_other (x : Byte) (k j : Nat) (d : Bool) (h : j ≠ k) :
    byteBit (setByteBit x k d) j = byteBit x j := by
  simp only [byteBit, setByteBit, BitVec.getLsbD_or, BitVec.getLsbD_and, BitVec.getLsbD_not,
    BitVec.getLsbD_shiftLeft, BitVec.getLsbD_setWidth, BitVec.getLsbD_ofBool, BitVec.getLsbD_one]
  by_cases hj : j < 8
  · by_cases hk : j < k
    · simp [hk, hj]
    · have h0 : j - k ≠ 0 := by omega
      simp [hk, hj, h0]
  · have h0 : x.getLsbD j = false := BitVec.getLsbD_of_ge _ _ (by omega)
    simp [hj, h0]

/-- R67: bit `b` of the little-endian bytes of `v` is bit `b` of `v`. -/
theorem seqBit_leBytes (n v b : Nat) (h : b < 8 * n) : seqBit (leBytes n v) b = v.testBit b := by
  have h1 : b / 8 < (leBytes n v).length := by simp; omega
  have h2 : b % 8 < 8 := by omega
  simp only [seqBit, byteBit, List.getD_eq_getElem _ _ h1, leBytes_getElem, BitVec.getLsbD_ofNat,
    Nat.testBit_shiftRight, h2, decide_true, Bool.true_and]
  congr 1
  omega

theorem seqBit_append_left (f g : List Byte) (b : Nat) (h : b < 8 * f.length) :
    seqBit (f ++ g) b = seqBit f b := by
  have h1 : b / 8 < f.length := by omega
  simp [seqBit, List.getElem?_append_left h1]

theorem seqBit_append_right (f g : List Byte) (b : Nat) (h : 8 * f.length ≤ b) :
    seqBit (f ++ g) b = seqBit g (b - 8 * f.length) := by
  have h1 : f.length ≤ b / 8 := by omega
  have h2 : (b - 8 * f.length) / 8 = b / 8 - f.length := by omega
  have h3 : (b - 8 * f.length) % 8 = b % 8 := by omega
  simp [seqBit, List.getElem?_append_right h1, h2, h3]

theorem seqBit_getElem (d : List Byte) (b : Nat) (h : b / 8 < d.length) :
    seqBit d b = byteBit d[b / 8] (b % 8) := by
  simp [seqBit, h]

end Sys2Proof
end

