-- ==== Sys2Proof/Laws/Memory.lean ====
section
/-! SUPPORT. Laws of the byte memory: every operation keeps the canonical form, and a read after a write. -/

namespace Sys2Proof.Machine

/-! The canonical form. -/

theorem Memory.risingFrom_mono {lo lo' : Nat} {m : Memory} (h : lo' ≤ lo) (hm : Memory.risingFrom lo m = true) :
    Memory.risingFrom lo' m = true := by
  cases m with
  | nil => rfl
  | cons c m => simp_all [Memory.risingFrom]; omega

/-- Below its first entry a memory reads as unlisted. -/
theorem Memory.read_of_lt {lo k : Nat} {m : Memory} (hm : Memory.risingFrom lo m = true) (h : k < lo) :
    m.read k = Memory.unlisted := by
  cases m with
  | nil => rfl
  | cons c m =>
    simp only [Memory.risingFrom, Bool.and_eq_true, decide_eq_true_eq] at hm
    simp [Memory.read, show k < c.1 by omega]

theorem Memory.write_risingFrom {lo k : Nat} {m : Memory} (y : Byte) (hm : Memory.risingFrom lo m = true)
    (h : lo ≤ k) : Memory.risingFrom lo (m.write k y) = true := by
  induction m generalizing lo with
  | nil =>
    simp only [Memory.write]
    split <;> simp_all [Memory.risingFrom]
  | cons c m ih =>
    obtain ⟨a, x⟩ := c
    simp only [Memory.risingFrom, Bool.and_eq_true, decide_eq_true_eq, bne_iff_ne] at hm
    obtain ⟨⟨h1, h2⟩, h3⟩ := hm
    simp only [Memory.write]
    split_ifs with hk hy hk' hy'
    · simp [Memory.risingFrom, h1, h2, h3]
    · simp only [Memory.risingFrom, Bool.and_eq_true, decide_eq_true_eq, bne_iff_ne]
      exact ⟨⟨h, hy⟩, ⟨by omega, h2⟩, h3⟩
    · exact Memory.risingFrom_mono (by omega) h3
    · subst hk'
      simp [Memory.risingFrom, h, hy', h3]
    · simp only [Memory.risingFrom, Bool.and_eq_true, decide_eq_true_eq, bne_iff_ne]
      exact ⟨⟨h1, h2⟩, ih h3 (by omega)⟩

/-- A write keeps the canonical form. -/
theorem Memory.write_wf {m : Memory} (hm : m.wf = true) (k : Nat) (y : Byte) : (m.write k y).wf = true :=
  Memory.write_risingFrom y hm (Nat.zero_le k)

theorem Memory.below_cons (n : Nat) (c : Host.Cell) (m : Memory) :
    Memory.below n (c :: m) = true ↔ c.1 < n ∧ m.below n = true := by
  simp [Memory.below, List.all_cons]

theorem Memory.write_below {n k : Nat} {m : Memory} (y : Byte) (hm : m.below n = true) (h : k < n) :
    (m.write k y).below n = true := by
  induction m with
  | nil =>
    simp only [Memory.write]
    split <;> simp_all [Memory.below]
  | cons c m ih =>
    rw [Memory.below_cons] at hm
    simp only [Memory.write]
    split_ifs <;> (try rw [Memory.below_cons]) <;> (try rw [Memory.below_cons]) <;> tauto

/-! A read after a write. -/

theorem Memory.read_write_same_from {lo k : Nat} {m : Memory} (y : Byte) (hm : Memory.risingFrom lo m = true) :
    (m.write k y).read k = y := by
  induction m generalizing lo with
  | nil =>
    simp only [Memory.write]
    split_ifs with h <;> simp [Memory.read, h]
  | cons c m ih =>
    obtain ⟨a, x⟩ := c
    simp only [Memory.risingFrom, Bool.and_eq_true, decide_eq_true_eq, bne_iff_ne] at hm
    simp only [Memory.write]
    split_ifs with hk hy hk' hy'
    · simp [Memory.read, hk, hy]
    · simp [Memory.read]
    · rw [hy', Memory.read_of_lt hm.2 (by omega)]
    · simp [Memory.read]
    · simp [Memory.read, hk, hk', ih hm.2]

theorem Memory.read_write_other_from {lo k j : Nat} {m : Memory} (y : Byte) (hm : Memory.risingFrom lo m = true)
    (h : j ≠ k) : (m.write k y).read j = m.read j := by
  induction m generalizing lo with
  | nil =>
    simp only [Memory.write]
    split_ifs
    · rfl
    · simp [Memory.read, h]
  | cons c m ih =>
    obtain ⟨a, x⟩ := c
    simp only [Memory.risingFrom, Bool.and_eq_true, decide_eq_true_eq, bne_iff_ne] at hm
    simp only [Memory.write]
    split_ifs with hk hy hk' hy'
    · rfl
    · simp only [Memory.read]
      split_ifs <;> first | rfl | omega
    · subst hk'
      simp only [Memory.read, h, if_false]
      split_ifs with hj
      · exact Memory.read_of_lt hm.2 (by omega)
      · rfl
    · subst hk'
      simp [Memory.read, h]
    · simp [Memory.read, ih hm.2]

/-- The byte written is the byte read. -/
@[simp] theorem Memory.read_write_same {m : Memory} (hm : m.wf = true) (k : Nat) (y : Byte) :
    (m.write k y).read k = y := Memory.read_write_same_from y hm

/-- A write leaves every other byte alone. -/
theorem Memory.read_write_other {m : Memory} (hm : m.wf = true) {k j : Nat} (y : Byte) (h : j ≠ k) :
    (m.write k y).read j = m.read j := Memory.read_write_other_from y hm h

theorem Memory.read_write {m : Memory} (hm : m.wf = true) (k j : Nat) (y : Byte) :
    (m.write k y).read j = if j = k then y else m.read j := by
  split_ifs with h
  · rw [h, Memory.read_write_same hm]
  · exact Memory.read_write_other hm y h

/-- Two memories in canonical form that hold the same bytes are the same memory. -/
theorem Memory.ext_from {lo : Nat} {m m' : Memory} (hm : Memory.risingFrom lo m = true)
    (hm' : Memory.risingFrom lo m' = true) (h : ∀ k, m.read k = m'.read k) : m = m' := by
  induction m generalizing lo m' with
  | nil =>
    cases m' with
    | nil => rfl
    | cons c m' =>
      simp only [Memory.risingFrom, Bool.and_eq_true, decide_eq_true_eq, bne_iff_ne] at hm'
      have := h c.1
      simp [Memory.read] at this
      exact absurd this.symm hm'.1.2
  | cons c m ih =>
    obtain ⟨a, x⟩ := c
    simp only [Memory.risingFrom, Bool.and_eq_true, decide_eq_true_eq, bne_iff_ne] at hm
    cases m' with
    | nil =>
      have := h a
      simp [Memory.read] at this
      exact absurd this hm.1.2
    | cons c' m' =>
      obtain ⟨a', x'⟩ := c'
      simp only [Memory.risingFrom, Bool.and_eq_true, decide_eq_true_eq, bne_iff_ne] at hm'
      have ha := h a
      have ha' := h a'
      simp only [Memory.read, lt_irrefl, if_false, if_true] at ha ha'
      have e : a = a' := by
        rcases lt_trichotomy a a' with hl | he | hl
        · rw [if_pos hl] at ha; exact absurd ha hm.1.2
        · exact he
        · rw [if_pos hl] at ha'; exact absurd ha'.symm hm'.1.2
      subst e
      simp only [lt_irrefl, if_false, if_true] at ha
      subst ha
      congr 1
      refine ih hm.2 hm'.2 fun k => ?_
      rcases Nat.lt_or_ge k (a + 1) with hk | hk
      · rw [Memory.read_of_lt hm.2 hk, Memory.read_of_lt hm'.2 hk]
      · have := h k
        simpa [Memory.read, show ¬ k < a by omega, show ¬ k = a by omega] using this

theorem Memory.ext {m m' : Memory} (hm : m.wf = true) (hm' : m'.wf = true) (h : ∀ k, m.read k = m'.read k) :
    m = m' := Memory.ext_from hm hm' h

/-! Byte sequences. -/

theorem Memory.writeBytes_wf {m : Memory} (hm : m.wf = true) (k : Nat) (ys : List Byte) :
    (m.writeBytes k ys).wf = true := by
  induction ys generalizing m k with
  | nil => exact hm
  | cons y ys ih => exact ih (Memory.write_wf hm k y) (k + 1)

theorem Memory.writeBytes_below {n : Nat} {m : Memory} (k : Nat) (ys : List Byte) (hm : m.below n = true)
    (h : k + ys.length ≤ n) : (m.writeBytes k ys).below n = true := by
  induction ys generalizing m k with
  | nil => exact hm
  | cons y ys ih =>
    simp only [List.length_cons] at h
    exact ih (k + 1) (Memory.write_below y hm (by omega)) (by omega)

/-- What a memory holds after a byte sequence is written. -/
theorem Memory.read_writeBytes {m : Memory} (hm : m.wf = true) (k : Nat) (ys : List Byte) (j : Nat) :
    (m.writeBytes k ys).read j =
      if h : k ≤ j ∧ j < k + ys.length then ys[j - k]'(by omega) else m.read j := by
  induction ys generalizing m k with
  | nil =>
    rw [dif_neg (by simp only [List.length_nil]; omega)]
    rfl
  | cons y ys ih =>
    rw [Memory.writeBytes, ih (Memory.write_wf hm k y)]
    by_cases hj : j = k
    · subst hj
      rw [dif_neg (by omega), dif_pos ⟨le_refl _, by simp⟩, Memory.read_write_same hm]
      simp
    · by_cases hr : k ≤ j ∧ j < k + (y :: ys).length
      · have hr' : k + 1 ≤ j ∧ j < k + 1 + ys.length := by simp only [List.length_cons] at hr; omega
        rw [dif_pos hr, dif_pos hr']
        have e : j - k = (j - (k + 1)) + 1 := by omega
        simp only [e, List.getElem_cons_succ]
      · rw [dif_neg hr, dif_neg (by simp only [List.length_cons] at hr; omega), Memory.read_write_other hm y hj]

theorem Memory.read_writeBytes_in {m : Memory} (hm : m.wf = true) (k : Nat) (ys : List Byte) (j : Nat)
    (h : j < ys.length) : (m.writeBytes k ys).read (k + j) = ys[j] := by
  rw [Memory.read_writeBytes hm, dif_pos (by omega)]
  congr 1
  omega

theorem Memory.read_writeBytes_out {m : Memory} (hm : m.wf = true) (k : Nat) (ys : List Byte) (j : Nat)
    (h : j < k ∨ k + ys.length ≤ j) : (m.writeBytes k ys).read j = m.read j := by
  rw [Memory.read_writeBytes hm, dif_neg (by omega)]

@[simp] theorem Memory.readBytes_length (m : Memory) (k n : Nat) : (m.readBytes k n).length = n := by
  induction n generalizing k with
  | zero => rfl
  | succ n ih => simp [Memory.readBytes, ih]

theorem Memory.readBytes_getElem (m : Memory) (k n j : Nat) (h : j < (m.readBytes k n).length) :
    (m.readBytes k n)[j] = m.read (k + j) := by
  induction n generalizing k j with
  | zero => simp at h
  | succ n ih =>
    cases j with
    | zero => rfl
    | succ j =>
      simp only [Memory.readBytes, List.getElem_cons_succ]
      rw [ih]
      congr 1
      omega

/-- Two memories that agree below `n` dump the same bytes. -/
theorem Memory.readBytes_congr {m m' : Memory} {n : Nat} (h : ∀ k, k < n → m.read k = m'.read k) :
    m.readBytes 0 n = m'.readBytes 0 n := by
  apply List.ext_getElem (by simp)
  intro j h1 h2
  rw [Memory.readBytes_getElem, Memory.readBytes_getElem]
  exact h _ (by simpa using h1)

/-! One bit of the BitArray. -/

theorem Memory.setBit_wf {m : Memory} (hm : m.wf = true) (i : Nat) (d : Bool) : (m.setBit i d).wf = true :=
  Memory.write_wf hm _ _

theorem Memory.setBit_below {n : Nat} {m : Memory} (i : Nat) (d : Bool) (hm : m.below n = true) (h : i / 8 < n) :
    (m.setBit i d).below n = true := Memory.write_below _ hm h

theorem Memory.read_setBit {m : Memory} (hm : m.wf = true) (i : Nat) (d : Bool) (j : Nat) :
    (m.setBit i d).read j = if j = i / 8 then setByteBit (m.read j) (i % 8) d else m.read j := by
  rw [Memory.setBit, Memory.read_write hm]
  split_ifs with h
  · rw [h]
  · rfl

/-- R61 L1. -/
theorem Memory.bit_setBit_same {m : Memory} (hm : m.wf = true) (i : Nat) (d : Bool) : (m.setBit i d).bit i = d := by
  rw [Memory.bit, Memory.read_setBit hm, if_pos rfl, byteBit_setByteBit_same _ _ _ (by omega)]

/-- R61 L2. -/
theorem Memory.bit_setBit_other {m : Memory} (hm : m.wf = true) (i j : Nat) (d : Bool) (h : j ≠ i) :
    (m.setBit i d).bit j = m.bit j := by
  rw [Memory.bit, Memory.read_setBit hm]
  split_ifs with hj
  · rw [byteBit_setByteBit_other _ _ _ _ (by omega), Memory.bit]
  · rfl

end Sys2Proof.Machine
end

