-- ==== Sys2Proof/Laws/Carrier.lean ====
section
/-! SUPPORT. Laws of the channel map, of the least-significant bits of the carrier, of frames and of capacities. -/

namespace Sys2Proof.Machine

/-! The channel map. -/

/-- R69 M2. -/
theorem offset_lt {b c : Nat} (h : b < c) : offset b < offset c := by
  unfold offset
  omega

theorem offset_inj {b c : Nat} : offset b = offset c ↔ b = c := by
  unfold offset
  omega

/-- R69 M4. -/
theorem offset_lt_pixels (b p : Nat) : offset b < 4 * p ↔ b < 3 * p := by
  unfold offset
  omega

/-- R69 M1. -/
theorem offset_mod (b : Nat) : offset b % 4 ≠ 3 := by
  unfold offset
  omega

/-- R69 M4 for a carrier. -/
theorem offset_lt_carrierLen (b : Nat) (w h : HWord) : offset b < carrierLen w h ↔ b < usableBits w h := by
  rw [carrierLen, usableBits, Nat.mul_assoc, Nat.mul_assoc]
  exact offset_lt_pixels b _

/-- R28, R69 M5: the logical bits `3p`, `3p + 1` and `3p + 2` lie in the R, G and B bytes of pixel `p`. -/
theorem offset_pixelByte (w : HWord) (x y c : Nat) (h : c < usableChannels) :
    offset (usableChannels * (y * w.toNat + x) + c) = pixelByte w x y c := by
  simp only [offset, pixelByte, channels, usableChannels] at *
  generalize y * w.toNat + x = p
  omega

/-- R28: the bytes of a pixel inside the geometry lie inside the carrier. -/
theorem pixelByte_lt (w h : HWord) (x y c : Nat) (hx : x < w.toNat) (hy : y < h.toNat) (hc : c < channels) :
    pixelByte w x y c < carrierLen w h := by
  have h1 : (y + 1) * w.toNat ≤ h.toNat * w.toNat := Nat.mul_le_mul_right _ hy
  simp only [pixelByte, carrierLen, channels] at *
  rw [Nat.mul_assoc, Nat.mul_comm w.toNat]
  rw [Nat.add_mul, Nat.one_mul] at h1
  omega

/-! Least-significant bits of the carrier. -/

/-- The byte PB_LSBWR stores (R74). -/
def lsbByte (x : Byte) (d : Bool) : Byte := (x &&& 0xFE#8) ||| (BitVec.ofBool d).setWidth 8

theorem lsbByte_bit (x : Byte) (d : Bool) (k : Nat) :
    byteBit (lsbByte x d) k = if k = 0 then d else byteBit x k := by
  by_cases hk : k < 8
  · have h : ∀ (x : Byte) (d : Bool) (k : Fin 8),
        byteBit (lsbByte x d) k.val = if k.val = 0 then d else byteBit x k.val := by
      intro x d k
      have hfe : (0xFE#8).getLsbD k.val = decide (k.val ≠ 0) := by revert k; decide
      simp only [byteBit, lsbByte, BitVec.getLsbD_or, BitVec.getLsbD_and, BitVec.getLsbD_setWidth,
        BitVec.getLsbD_ofBool, hfe]
      have := k.isLt
      by_cases h0 : k.val = 0 <;> simp [h0]
    exact h x d ⟨k, hk⟩
  · have h0 : k ≠ 0 := by omega
    rw [if_neg h0, byteBit, byteBit, BitVec.getLsbD_of_ge _ _ (by omega), BitVec.getLsbD_of_ge _ _ (by omega)]

theorem Memory.setLsb_wf {m : Memory} (hm : m.wf = true) (b : Nat) (d : Bool) : (m.setLsb b d).wf = true :=
  Memory.write_wf hm _ _

theorem Memory.setLsb_below {n : Nat} {m : Memory} (b : Nat) (d : Bool) (hm : m.below n = true)
    (h : offset b < n) : (m.setLsb b d).below n = true := Memory.write_below _ hm h

theorem Memory.read_setLsb {m : Memory} (hm : m.wf = true) (b : Nat) (d : Bool) (o : Nat) :
    (m.setLsb b d).read o = if o = offset b then lsbByte (m.read o) d else m.read o := by
  rw [Memory.setLsb, Memory.read_write hm]
  split_ifs with h
  · rw [h, lsbByte]
  · rfl

theorem Memory.embed_wf {m : Memory} (hm : m.wf = true) (f : List Byte) (k : Nat) : (m.embed f k).wf = true := by
  induction k with
  | zero => exact hm
  | succ k ih => exact Memory.setLsb_wf ih k _

theorem Memory.embed_below {n : Nat} {m : Memory} (f : List Byte) (k : Nat) (hm : m.below n = true)
    (h : ∀ b, b < k → offset b < n) : (m.embed f k).below n = true := by
  induction k with
  | zero => exact hm
  | succ k ih =>
    exact Memory.setLsb_below k _ (ih fun b hb => h b (by omega)) (h k (by omega))

/-- No byte of an embedding changes but those at the mapped offsets. -/
theorem Memory.read_embed_other {m : Memory} (hm : m.wf = true) (f : List Byte) (k o : Nat)
    (h : ∀ b, b < k → o ≠ offset b) : (m.embed f k).read o = m.read o := by
  induction k with
  | zero => rfl
  | succ k ih =>
    rw [Memory.embed, Memory.read_setLsb (Memory.embed_wf hm f k), if_neg (h k (by omega))]
    exact ih fun b hb => h b (by omega)

/-- R83 step 5: the byte at the offset of frame bit `b` has that bit in its least-significant place. -/
theorem Memory.read_embed_at {m : Memory} (hm : m.wf = true) (f : List Byte) (k b : Nat) (h : b < k) :
    (m.embed f k).read (offset b) = lsbByte (m.read (offset b)) (seqBit f b) := by
  induction k with
  | zero => omega
  | succ k ih =>
    rw [Memory.embed, Memory.read_setLsb (Memory.embed_wf hm f k)]
    by_cases hb : b = k
    · subst hb
      rw [if_pos rfl, Memory.read_embed_other hm f b _ fun c hc => by rw [Ne, offset_inj]; omega]
    · rw [if_neg (by rwa [offset_inj]), ih (by omega)]

theorem Memory.lsb_embed {m : Memory} (hm : m.wf = true) (f : List Byte) (k b : Nat) (h : b < k) :
    (m.embed f k).lsb b = seqBit f b := by
  rw [Memory.lsb, Memory.read_embed_at hm f k b h, lsbByte_bit, if_pos rfl]

/-- No bit other than bit 0 changes. -/
theorem Memory.read_embed_upper {m : Memory} (hm : m.wf = true) (f : List Byte) (n o k : Nat) (h : k ≠ 0) :
    byteBit ((m.embed f n).read o) k = byteBit (m.read o) k := by
  induction n with
  | zero => rfl
  | succ n ih =>
    rw [Memory.embed, Memory.read_setLsb (Memory.embed_wf hm f n)]
    split_ifs
    · rw [lsbByte_bit, if_neg h, ih]
    · exact ih

/-! Numbers read from the carrier. -/

theorem Memory.gather_lt (m : Memory) (base n : Nat) : m.gather base n < 2 ^ n := by
  induction n with
  | zero => simp [Memory.gather]
  | succ n ih =>
    have h : (m.lsb (base + n)).toNat ≤ 1 := Bool.toNat_le _
    rw [Memory.gather, Nat.shiftLeft_eq, pow_succ]
    nlinarith

/-- R84: bit `k` of the number read from the carrier is the carrier bit at `base + k`. -/
theorem Memory.testBit_gather (m : Memory) (base n k : Nat) (h : k < n) :
    (m.gather base n).testBit k = m.lsb (base + k) := by
  induction n with
  | zero => omega
  | succ n ih =>
    have hlt := Memory.gather_lt m base n
    rw [Memory.gather, Nat.shiftLeft_eq, Nat.mul_comm, Nat.add_comm, Nat.testBit_two_pow_mul_add _ hlt]
    by_cases hk : k = n
    · subst hk
      cases hb : m.lsb (base + k) <;> simp
    · rw [if_pos (by omega)]
      exact ih (by omega)

theorem Memory.gather_congr {m m' : Memory} (base n : Nat) (h : ∀ k, k < n → m.lsb (base + k) = m'.lsb (base + k)) :
    m.gather base n = m'.gather base n := by
  induction n with
  | zero => rfl
  | succ n ih => rw [Memory.gather, Memory.gather, ih fun k hk => h k (by omega), h n (by omega)]

/-- A number is determined by its bits. -/
theorem Memory.gather_eq {m : Memory} {base n v : Nat} (hv : v < 2 ^ n)
    (h : ∀ k, k < n → v.testBit k = m.lsb (base + k)) : m.gather base n = v := by
  apply Nat.eq_of_testBit_eq
  intro k
  by_cases hk : k < n
  · rw [Memory.testBit_gather m base n k hk, h k hk]
  · have h2 : 2 ^ n ≤ 2 ^ k := Nat.pow_le_pow_right (by omega) (by omega)
    rw [Nat.testBit_lt_two_pow (lt_of_lt_of_le (Memory.gather_lt m base n) h2),
      Nat.testBit_lt_two_pow (lt_of_lt_of_le hv h2)]

@[simp] theorem Memory.extract_length (m : Memory) (j n : Nat) : (m.extract j n).length = n := by
  induction n generalizing j with
  | zero => rfl
  | succ n ih => simp [Memory.extract, ih]

theorem Memory.extract_getElem (m : Memory) (j n k : Nat) (h : k < (m.extract j n).length) :
    (m.extract j n)[k] = BitVec.ofNat 8 (m.gather (32 + 8 * (j + k)) 8) := by
  induction n generalizing j k with
  | zero => simp at h
  | succ n ih =>
    cases k with
    | zero => rfl
    | succ k =>
      simp only [Memory.extract, List.getElem_cons_succ]
      rw [ih, show j + 1 + k = j + (k + 1) by omega]

/-- R84 step 4: bit `k` of payload byte `j` is the carrier bit `32 + 8j + k`. -/
theorem Memory.bit_extract (m : Memory) (n j k : Nat) (h : j < (m.extract 0 n).length) (hk : k < 8) :
    byteBit ((m.extract 0 n)[j]) k = m.lsb (32 + 8 * j + k) := by
  rw [Memory.extract_getElem, byteBit, BitVec.getLsbD_ofNat, Memory.testBit_gather _ _ _ _ hk]
  simp [hk]

theorem Memory.extract_congr {m m' : Memory} (n : Nat) (h : ∀ b, b < 32 + 8 * n → m.lsb b = m'.lsb b) :
    m.extract 0 n = m'.extract 0 n := by
  apply List.ext_getElem (by simp)
  intro j h1 h2
  rw [Memory.extract_getElem, Memory.extract_getElem]
  congr 1
  apply Memory.gather_congr
  intro k hk
  simp at h1
  exact h _ (by omega)

/-! The frame. -/

@[simp] theorem frame_length (n : Nat) (d : List Byte) : (frame n d).length = 4 + d.length := by simp [frame]

/-- R67: the first 32 bits of a frame are the bits of the length. -/
theorem seqBit_frame_header (n : Nat) (d : List Byte) (b : Nat) (h : b < 32) : seqBit (frame n d) b = n.testBit b := by
  rw [frame, seqBit_append_left _ _ _ (by simp; omega), seqBit_leBytes _ _ _ (by omega)]

/-- R67: the bits after them are the payload's. -/
theorem seqBit_frame_payload (n : Nat) (d : List Byte) (b : Nat) (h : 32 ≤ b) :
    seqBit (frame n d) b = seqBit d (b - 32) := by
  rw [frame, seqBit_append_right _ _ _ (by simp; omega)]
  simp

/-! Capacity. -/

@[simp] theorem imgOk_iff (w h : HWord) : imgOk w h = true ↔ 4 < maxTotal w h := by
  rw [imgOk, decide_eq_true_eq, headerSize, gt_iff_lt]

@[simp] theorem payOk_iff (w h : HWord) (n : Nat) : payOk w h n = true ↔ 0 < n ∧ n + 4 ≤ maxTotal w h := by
  rw [payOk, Bool.and_eq_true, decide_eq_true_eq, decide_eq_true_eq, headerSize]

theorem maxTotal_le (w h : HWord) : 8 * maxTotal w h ≤ usableBits w h := Nat.mul_div_le _ _

/-- R77 K7. -/
theorem frame_fits {w h : HWord} {n : Nat} (hn : 4 + n ≤ maxTotal w h) : 8 * (4 + n) ≤ usableBits w h :=
  le_trans (Nat.mul_le_mul_left 8 hn) (maxTotal_le w h)

/-- R6 P1, R84: a payload that the carrier can hold fits in `FB`, and its length fits the header. -/
theorem maxTotal_le_of_pbLen {w h : HWord} {pb : Nat} (hp : carrierLen w h ≤ pb) : maxTotal w h ≤ 3 * pb / 32 := by
  rw [maxTotal, usableBits, Nat.mul_assoc]
  rw [carrierLen, Nat.mul_assoc] at hp
  generalize w.toNat * h.toNat = q at *
  omega

theorem carrierLen_lt (w h : HWord) : carrierLen w h < 2 ^ 66 := by
  have hw := w.isLt
  have hh := h.isLt
  have := Nat.mul_le_mul (Nat.le_of_lt_succ (show w.toNat < (2 ^ 32 - 1) + 1 by omega))
    (Nat.le_of_lt_succ (show h.toNat < (2 ^ 32 - 1) + 1 by omega))
  rw [carrierLen, Nat.mul_assoc]
  omega

/-- R76: `maxTotal < 2^63`. -/
theorem maxTotal_lt (w h : HWord) : maxTotal w h < 2 ^ 63 := by
  have hw := w.isLt
  have hh := h.isLt
  have := Nat.mul_le_mul (Nat.le_of_lt_succ (show w.toNat < (2 ^ 32 - 1) + 1 by omega))
    (Nat.le_of_lt_succ (show h.toNat < (2 ^ 32 - 1) + 1 by omega))
  rw [maxTotal, usableBits, Nat.mul_assoc]
  omega

end Sys2Proof.Machine
end

