-- ==== Sys2Proof/Laws/Decode.lean ====
section
/-! SUPPORT. Laws of the decoder and of the encoder. -/

namespace Sys2Proof

/-! The opcode map. -/

@[simp] theorem Op.ofCode_code (o : Op) : Op.ofCode o.code = some o := by cases o <;> decide

theorem Op.code_of_ofCode {c : Byte} {o : Op} (h : Op.ofCode c = some o) : o.code = c := by
  have := List.find?_some h
  simpa using this

/-- R47: no two rows share an opcode. -/
theorem Op.code_injective {o o' : Op} (h : o.code = o'.code) : o = o' := by
  have := Op.ofCode_code o
  rw [h, Op.ofCode_code] at this
  exact (Option.some.inj this).symm

theorem Op.mem_all (o : Op) : o ∈ Op.all := by cases o <;> decide

/-- R50: the opcodes outside R47. -/
theorem Op.ofCode_none {c : Byte} : Op.ofCode c = none ↔ ∀ o : Op, o.code ≠ c := by
  simp only [Op.ofCode, List.find?_eq_none, beq_iff_eq]
  exact ⟨fun h o => h o (Op.mem_all o), fun h o _ => h o⟩

/-! Header fields. -/

theorem Instr.header_toNat (i : Instr) : i.header.toNat = i.op.code.toNat * 2 ^ 24 + i.v.toNat * 2 ^ 16 := by
  unfold Instr.header
  rw [BitVec.toNat_append, BitVec.toNat_append, ← Nat.shiftLeft_add_eq_or_of_lt (by simp),
    ← Nat.shiftLeft_add_eq_or_of_lt i.v.isLt, Nat.shiftLeft_eq, Nat.shiftLeft_eq]
  simp
  omega

@[simp] theorem hdrOpcode_header (i : Instr) : hdrOpcode i.header = i.op.code := by
  have hc := i.op.code.isLt
  have hv := i.v.isLt
  apply BitVec.eq_of_toNat_eq
  rw [hdrOpcode, BitVec.extractLsb'_toNat, Instr.header_toNat, Nat.shiftRight_eq_div_pow]
  omega

@[simp] theorem hdrV_header (i : Instr) : hdrV i.header = i.v := by
  have hc := i.op.code.isLt
  have hv := i.v.isLt
  apply BitVec.eq_of_toNat_eq
  rw [hdrV, BitVec.extractLsb'_toNat, Instr.header_toNat, Nat.shiftRight_eq_div_pow]
  omega

@[simp] theorem hdrReserved_header (i : Instr) : hdrReserved i.header = 0 := by
  apply BitVec.eq_of_toNat_eq
  rw [hdrReserved, BitVec.extractLsb'_toNat, Instr.header_toNat, Nat.shiftRight_eq_div_pow]
  simp
  omega

/-- A header is its three fields (R43). -/
theorem header_toNat (h : HWord) :
    h.toNat = (hdrOpcode h).toNat * 2 ^ 24 + (hdrV h).toNat * 2 ^ 16 + (hdrReserved h).toNat := by
  have := h.isLt
  simp only [hdrOpcode, hdrV, hdrReserved, BitVec.extractLsb'_toNat, Nat.shiftRight_eq_div_pow]
  omega

theorem Instr.v_of_not_usesV (i : Instr) (h : i.op.usesV = false) : i.v = 0 := by
  cases i <;> simp_all [Instr.op, Op.usesV, Instr.v]

@[simp] theorem hdrOk_header (i : Instr) : hdrOk i.op i.header = true := by
  rw [hdrOk, hdrReserved_header, hdrV_header]
  cases h : i.op.usesV
  · simp [Instr.v_of_not_usesV i h]
  · simp

/-- R43, R47: the bytes of a header in wire order. -/
theorem leBytes_header (i : Instr) : leBytes 4 i.header.toNat = [0, 0, i.v, i.op.code] := by
  have hc := i.op.code.isLt
  have hv := i.v.isLt
  rw [Instr.header_toNat]
  simp only [leBytes, List.cons.injEq, and_true]
  refine ⟨?_, ?_, ?_, ?_⟩ <;> apply BitVec.eq_of_toNat_eq <;> simp <;> omega

/-! The decoder. -/

/-- R45: the decoder reads a header as a little-endian word. -/
theorem decode_header (h : HWord) (rest : List Byte) :
    decode (leBytes 4 h.toNat ++ rest) =
      match Op.ofCode (hdrOpcode h) with
      | none => .illegal .undefinedOpcode 4
      | some o => decodeBody o h rest := by
  have e : BitVec.ofNat 32 (leNat (leBytes 4 h.toNat)) = h := by
    rw [leNat_leBytes]
    apply BitVec.eq_of_toNat_eq
    have := h.isLt
    rw [BitVec.toNat_ofNat]
    omega
  simp only [leBytes] at e
  simp only [decode, leBytes, List.cons_append, List.nil_append, e] <;> rfl

/-- R45: four bytes are the little-endian bytes of the word the decoder makes of them. -/
theorem leBytes_headerWord (h0 h1 h2 h3 : Byte) :
    leBytes 4 (BitVec.ofNat 32 (leNat [h0, h1, h2, h3])).toNat = [h0, h1, h2, h3] := by
  have hlt := leNat_lt [h0, h1, h2, h3]
  have e : (BitVec.ofNat 32 (leNat [h0, h1, h2, h3])).toNat = leNat [h0, h1, h2, h3] := by
    rw [BitVec.toNat_ofNat]
    simp only [List.length_cons, List.length_nil] at hlt
    omega
  rw [e]
  exact leBytes_leNat [h0, h1, h2, h3]

/-- R45: the first byte on the wire is `H[7:0]`, the last `H[31:24]`. -/
theorem headerWord_eq (h0 h1 h2 h3 : Byte) :
    BitVec.ofNat 32 (leNat [h0, h1, h2, h3]) = h3 ++ h2 ++ h1 ++ h0 := by
  have b0 := h0.isLt
  have b1 := h1.isLt
  have b2 := h2.isLt
  have b3 := h3.isLt
  apply BitVec.eq_of_toNat_eq
  rw [BitVec.toNat_append, BitVec.toNat_append, BitVec.toNat_append, ← Nat.shiftLeft_add_eq_or_of_lt b0,
    ← Nat.shiftLeft_add_eq_or_of_lt b1, ← Nat.shiftLeft_add_eq_or_of_lt b2, BitVec.toNat_ofNat]
  simp only [leNat, Nat.shiftLeft_eq]
  omega

/-- R45: an operand word is read back whole. -/
@[simp] theorem readWord_leBytes (a : Word) (rest : List Byte) : readWord (leBytes 8 a.toNat ++ rest) = a := by
  have h : (leBytes 8 a.toNat ++ rest).take 8 = leBytes 8 a.toNat := by
    rw [List.take_append_of_le_length (by simp)]
    exact List.take_of_length_le (by simp)
  rw [readWord, h, leNat_leBytes]
  apply BitVec.eq_of_toNat_eq
  have := a.isLt
  rw [BitVec.toNat_ofNat]
  omega

/-- R45: eight bytes are the little-endian bytes of the word read from them. -/
theorem leBytes_readWord (bs : List Byte) (h : 8 ≤ bs.length) : leBytes 8 (readWord bs).toNat = bs.take 8 := by
  have hl : (bs.take 8).length = 8 := by simp; omega
  have hlt := leNat_lt (bs.take 8)
  rw [hl] at hlt
  have e : (readWord bs).toNat = leNat (bs.take 8) := by
    rw [readWord, BitVec.toNat_ofNat]
    omega
  have := leBytes_leNat (bs.take 8)
  rw [hl] at this
  rw [e, this]

theorem geoWord_toNat (w h : HWord) : (geoWord w h).toNat = w.toNat * 2 ^ 32 + h.toNat := by
  rw [geoWord, BitVec.toNat_append, ← Nat.shiftLeft_add_eq_or_of_lt h.isLt, Nat.shiftLeft_eq]

theorem geoWidth_toNat (a : Word) : (geoWidth a).toNat = a.toNat / 2 ^ 32 := by
  have := a.isLt
  rw [geoWidth, BitVec.extractLsb'_toNat, Nat.shiftRight_eq_div_pow]
  omega

theorem geoHeight_toNat (a : Word) : (geoHeight a).toNat = a.toNat % 2 ^ 32 := by
  rw [geoHeight, BitVec.extractLsb'_toNat, Nat.shiftRight_zero]

@[simp] theorem geoWidth_geoWord (w h : HWord) : geoWidth (geoWord w h) = w := by
  apply BitVec.eq_of_toNat_eq
  have := h.isLt
  rw [geoWidth_toNat, geoWord_toNat]
  omega

@[simp] theorem geoHeight_geoWord (w h : HWord) : geoHeight (geoWord w h) = h := by
  apply BitVec.eq_of_toNat_eq
  have := h.isLt
  rw [geoHeight_toNat, geoWord_toNat]
  omega

@[simp] theorem geoWord_halves (a : Word) : geoWord (geoWidth a) (geoHeight a) = a := by
  apply BitVec.eq_of_toNat_eq
  rw [geoWord_toNat, geoWidth_toNat, geoHeight_toNat]
  omega

/-- R45, R49: the wire bytes of a geometry operand are those of `h`, then those of `w`. -/
theorem leBytes_geoWord (w h : HWord) : leBytes 8 (geoWord w h).toNat = leBytes 4 h.toNat ++ leBytes 4 w.toNat := by
  have hw := w.isLt
  have hh := h.isLt
  rw [geoWord_toNat]
  simp only [leBytes, List.cons_append, List.nil_append, List.cons.injEq, and_true]
  refine ⟨?_, ?_, ?_, ?_, ?_, ?_, ?_, ?_⟩ <;> apply BitVec.eq_of_toNat_eq <;> simp only [BitVec.toNat_ofNat] <;> omega

/-- R45, R51: what the decoder makes of a command body that is all there. -/
theorem decodeBody_complete (o : Op) (h : HWord) (rest : List Byte) (h1 : 8 * o.nops ≤ rest.length)
    (h2 : o.dlen (readWord rest) ≤ (rest.drop (8 * o.nops)).length) :
    decodeBody o h rest =
      if hdrOk o h then
        .instr (assemble o (hdrV h) (readWord rest) (readWord (rest.drop 8))
          ((rest.drop (8 * o.nops)).take (o.dlen (readWord rest)))) (4 + 8 * o.nops + o.dlen (readWord rest))
      else .illegal .reservedBits (4 + 8 * o.nops + o.dlen (readWord rest)) := by
  rw [decodeBody, if_neg (by omega)]
  simp only
  rw [if_neg (by omega)]

/-- R45: a command body is incomplete exactly when operand or data bytes are missing. -/
theorem decodeBody_incomplete (o : Op) (h : HWord) (rest : List Byte) :
    decodeBody o h rest = .incomplete ↔
      rest.length < 8 * o.nops ∨ (rest.drop (8 * o.nops)).length < o.dlen (readWord rest) := by
  rw [decodeBody]
  simp only
  split_ifs with h1 h2 <;> simp_all

/-- The encoding of a command, its header bytes written out (R43, R45). -/
theorem encode_eq (i : Instr) :
    encode i = [0, 0, i.v, i.op.code] ++ i.operands.flatMap (fun a => leBytes 8 a.toNat) ++ i.data := by
  rw [encode, leBytes_header]

/-! The parts of an encoding. -/

/-- The operand bytes of a command (R45). -/
def Instr.operandBytes (i : Instr) : List Byte := i.operands.flatMap (fun a => leBytes 8 a.toNat)

theorem encode_parts (i : Instr) : encode i = leBytes 4 i.header.toNat ++ (i.operandBytes ++ i.data) := by
  rw [encode, List.append_assoc, Instr.operandBytes]

theorem Instr.operandBytes_length (i : Instr) : i.operandBytes.length = 8 * i.op.nops := by
  cases i <;> simp [Instr.operandBytes, Instr.operands, Instr.op, Op.nops]

/-- R47: after the operand words of a well-formed command stand exactly `dlen` data bytes. -/
theorem Instr.dlen_eq {i : Instr} (h : i.wf = true) (r : List Byte) :
    i.op.dlen (readWord (i.operandBytes ++ r)) = i.data.length := by
  cases i <;> simp only [Instr.wf, beq_iff_eq] at h <;>
    simp only [Instr.operandBytes, Instr.operands, Instr.op, Instr.data, Op.dlen, List.flatMap_cons, List.flatMap_nil,
      List.append_nil, readWord_leBytes, geoWidth_geoWord, geoHeight_geoWord, List.length_nil, List.length_cons, h]

/-- R49: the command is assembled again from its parts. -/
theorem Instr.assemble_eq (i : Instr) (r : List Byte) :
    assemble i.op i.v (readWord (i.operandBytes ++ r)) (readWord ((i.operandBytes ++ r).drop 8)) i.data = i := by
  have h8 : ∀ (a : Word) (r : List Byte), (leBytes 8 a.toNat ++ r).drop 8 = r := fun a r => List.drop_left' (by simp)
  cases i <;>
    simp only [Instr.operandBytes, Instr.operands, Instr.op, Instr.data, Instr.v, assemble, List.flatMap_cons,
      List.flatMap_nil, List.append_nil, List.append_assoc, readWord_leBytes, geoWidth_geoWord, geoHeight_geoWord, h8]
  rfl

/-- R45, R51: the body of a well-formed command under any header of its opcode is complete. It is the command under a
legal header, and IllegalCommand context 2 under another; either way its whole length is taken. -/
theorem decodeBody_operands_data {i : Instr} (hw : i.wf = true) (h : HWord) (r : List Byte) :
    decodeBody i.op h (i.operandBytes ++ (i.data ++ r)) =
      if hdrOk i.op h then
        .instr (assemble i.op (hdrV h) (readWord (i.operandBytes ++ (i.data ++ r)))
          (readWord ((i.operandBytes ++ (i.data ++ r)).drop 8)) i.data) (encode i).length
      else .illegal .reservedBits (encode i).length := by
  have hd : (i.operandBytes ++ (i.data ++ r)).drop (8 * i.op.nops) = i.data ++ r :=
    List.drop_left' i.operandBytes_length
  have hl : (encode i).length = 4 + 8 * i.op.nops + i.data.length := by
    rw [encode_parts]
    simp [Instr.operandBytes_length]
    omega
  rw [decodeBody_complete, hd, Instr.dlen_eq hw, List.take_left' rfl, hl]
  · simp [Instr.operandBytes_length]
  · rw [hd, Instr.dlen_eq hw]
    simp

end Sys2Proof
end

