-- ==== Sys2Proof/Laws/State.lean ====
section
/-! SUPPORT. One lemma for each field of the state and each update of it. -/

namespace Sys2Proof.Machine

/-! One lemma a field and update. -/

section respond
variable (s : State) (st : HWord) (r : Word) (out : List Byte)
@[simp] theorem State.respond_params : (s.respond st r out).params = s.params := rfl
@[simp] theorem State.respond_status : (s.respond st r out).status = st := rfl
@[simp] theorem State.respond_result : (s.respond st r out).result = r := rfl
@[simp] theorem State.respond_fbLen : (s.respond st r out).fbLen = s.fbLen := rfl
@[simp] theorem State.respond_iter : (s.respond st r out).iter = s.iter := rfl
@[simp] theorem State.respond_width : (s.respond st r out).width = s.width := rfl
@[simp] theorem State.respond_height : (s.respond st r out).height = s.height := rfl
@[simp] theorem State.respond_fb : (s.respond st r out).fb = s.fb := rfl
@[simp] theorem State.respond_pb : (s.respond st r out).pb = s.pb := rfl
@[simp] theorem State.respond_inputs : (s.respond st r out).inputs = s.inputs := rfl
@[simp] theorem State.respond_sent :
    (s.respond st r out).sent = s.sent ++ [{ status := st, result := r, out := out }] := rfl
end respond

section construct
variable (s : State) (fb : Memory) (n : Nat)
@[simp] theorem State.construct_params : (s.construct fb n).params = s.params := rfl
@[simp] theorem State.construct_status : (s.construct fb n).status = s.status := rfl
@[simp] theorem State.construct_result : (s.construct fb n).result = s.result := rfl
@[simp] theorem State.construct_fbLen : (s.construct fb n).fbLen = BitVec.ofNat 64 n := rfl
@[simp] theorem State.construct_iter : (s.construct fb n).iter = 0 := rfl
@[simp] theorem State.construct_width : (s.construct fb n).width = s.width := rfl
@[simp] theorem State.construct_height : (s.construct fb n).height = s.height := rfl
@[simp] theorem State.construct_fb : (s.construct fb n).fb = fb := rfl
@[simp] theorem State.construct_pb : (s.construct fb n).pb = s.pb := rfl
@[simp] theorem State.construct_inputs : (s.construct fb n).inputs = s.inputs := rfl
@[simp] theorem State.construct_sent : (s.construct fb n).sent = s.sent := rfl
end construct

section applyReset
variable (s : State) (rest : List HostInput)
@[simp] theorem State.applyReset_params : (s.applyReset rest).params = s.params := rfl
@[simp] theorem State.applyReset_status : (s.applyReset rest).status = 0 := rfl
@[simp] theorem State.applyReset_result : (s.applyReset rest).result = 0 := rfl
@[simp] theorem State.applyReset_fbLen : (s.applyReset rest).fbLen = 0 := rfl
@[simp] theorem State.applyReset_iter : (s.applyReset rest).iter = 0 := rfl
@[simp] theorem State.applyReset_width : (s.applyReset rest).width = 0 := rfl
@[simp] theorem State.applyReset_height : (s.applyReset rest).height = 0 := rfl
@[simp] theorem State.applyReset_fb : (s.applyReset rest).fb = s.fb := rfl
@[simp] theorem State.applyReset_pb : (s.applyReset rest).pb = s.pb := rfl
@[simp] theorem State.applyReset_inputs : (s.applyReset rest).inputs = rest := rfl
@[simp] theorem State.applyReset_sent : (s.applyReset rest).sent = s.sent := rfl
end applyReset

section consume
variable (s : State) (n : Nat)
@[simp] theorem State.consume_params : (s.consume n).params = s.params := rfl
@[simp] theorem State.consume_status : (s.consume n).status = s.status := rfl
@[simp] theorem State.consume_result : (s.consume n).result = s.result := rfl
@[simp] theorem State.consume_fbLen : (s.consume n).fbLen = s.fbLen := rfl
@[simp] theorem State.consume_iter : (s.consume n).iter = s.iter := rfl
@[simp] theorem State.consume_width : (s.consume n).width = s.width := rfl
@[simp] theorem State.consume_height : (s.consume n).height = s.height := rfl
@[simp] theorem State.consume_fb : (s.consume n).fb = s.fb := rfl
@[simp] theorem State.consume_pb : (s.consume n).pb = s.pb := rfl
@[simp] theorem State.consume_inputs : (s.consume n).inputs = s.inputs.drop n := rfl
@[simp] theorem State.consume_sent : (s.consume n).sent = s.sent := rfl
end consume

end Sys2Proof.Machine
end

