-- ==== Sys2Proof/Laws/Exec.lean ====
section
/-! SUPPORT. What a command can answer: its first error, or its own effect, result and output. -/

namespace Sys2Proof.Machine

/-! The shared operations: everything each can answer. -/

theorem done_next {r : Nat} {out : List Byte} {s t : State} :
    done r out s = .next t ↔ t = s.respond 0 (BitVec.ofNat 64 r) out := by
  rw [done, Host.Outcome.next.injEq, eq_comm]

theorem raise_next {e : Err} {r : Nat} {s t : State} :
    raise e r s = .next t ↔ t = s.respond e.status (BitVec.ofNat 64 r) [] := by
  rw [raise, Host.Outcome.next.injEq, eq_comm]

theorem guardFb_next {n : Nat} {s t : State} {k : Result} :
    guardFb n s k = .next t ↔ n ≤ s.params.fbMaxBytes ∧ k = .next t := by
  unfold guardFb
  split_ifs with h <;> simp [h]

theorem guardPb_next {n : Nat} {s t : State} {k : Result} :
    guardPb n s k = .next t ↔ n ≤ s.params.pbMaxBytes ∧ k = .next t := by
  unfold guardPb
  split_ifs with h <;> simp [h]

theorem needData_next {n : Nat} {d : List Byte} {t : State} {k : Result} :
    needData n d k = .next t ↔ d.length = n ∧ k = .next t := by
  unfold needData
  split_ifs with h <;> simp [h]

@[simp] theorem guardFb_of_le {n : Nat} {s : State} {k : Result} (h : n ≤ s.params.fbMaxBytes) :
    guardFb n s k = k := if_pos h

@[simp] theorem guardPb_of_le {n : Nat} {s : State} {k : Result} (h : n ≤ s.params.pbMaxBytes) :
    guardPb n s k = k := if_pos h

@[simp] theorem needData_of_eq {n : Nat} {d : List Byte} {k : Result} (h : d.length = n) :
    needData n d k = k := if_pos h

/-! What a command does when its checks pass: the checks, its own effect, its result and its output bytes. -/

/-- The command's own checks, and the room its accesses need. -/
def admitted : Instr → State → Prop
  | .baInit a d, s => d.length = a.toNat ∧ a.toNat ≤ s.params.fbMaxBytes
  | .baLen, _ => True
  | .baRead a, s => 0 ≤ bitIndex a ∧ bitIndex a < 8 * s.fbLen.toNat ∧ (bitIndex a).toNat / 8 + 1 ≤ s.params.fbMaxBytes
  | .baWrite _ a, s => 0 ≤ bitIndex a ∧ bitIndex a < 8 * s.fbLen.toNat ∧ (bitIndex a).toNat / 8 + 1 ≤ s.params.fbMaxBytes
  | .baIterStart, _ => True
  | .baIterNext, s => s.iter.toNat < 8 * s.fbLen.toNat → s.iter.toNat / 8 + 1 ≤ s.params.fbMaxBytes
  | .baDump, s => s.fbLen.toNat ≤ s.params.fbMaxBytes
  | .pkLe32 a, _ => a.toNat < 2 ^ 32
  | .pkFromle32 _ _ _ _, _ => True
  | .pkConcat a d, s => d.length = a.toNat ∧ s.fbLen.toNat + a.toNat ≤ s.params.fbMaxBytes
  | .frBuild a d, s => d.length = a.toNat ∧ a.toNat < 2 ^ 32 ∧ 4 + a.toNat ≤ s.params.fbMaxBytes
  | .cmMap a, _ => a.toNat < 2 ^ 48
  | .pbLoad w h d, s => d.length = carrierLen w h ∧ carrierLen w h ≤ s.params.pbMaxBytes
  | .pbDump, s => s.pbLen ≤ s.params.pbMaxBytes
  | .pbLsbrd a, s => offset a.toNat < s.pbLen ∧ offset a.toNat + 1 ≤ s.params.pbMaxBytes
  | .pbLsbwr _ a, s => offset a.toNat < s.pbLen ∧ offset a.toNat + 1 ≤ s.params.pbMaxBytes
  | .cvMaxtotal _ _, _ => True
  | .cvMaxpay _ _, _ => True
  | .cvImgok _ _, _ => True
  | .cvPayok _ _ _, _ => True
  | .cdEncode a d, s => d.length = a.toNat ∧ 4 < maxTotal s.width s.height ∧ a.toNat ≠ 0 ∧
      a.toNat ≤ maxTotal s.width s.height - 4 ∧ s.pbLen ≤ s.params.pbMaxBytes
  | .cdDecode, s => 4 < maxTotal s.width s.height ∧ s.pbLen ≤ s.params.pbMaxBytes ∧ s.pb.gather 0 32 ≠ 0 ∧
      s.pb.gather 0 32 ≤ maxTotal s.width s.height - 4 ∧ s.pb.gather 0 32 ≤ s.params.fbMaxBytes

/-- The state after the command's own effect, before it answers. -/
def effect : Instr → State → State
  | .baInit a d, s => s.construct (s.fb.writeBytes 0 d) a.toNat
  | .baLen, s => s
  | .baRead _, s => s
  | .baWrite v a, s => { s with fb := s.fb.setBit (bitIndex a).toNat (writeBit v) }
  | .baIterStart, s => { s with iter := 0 }
  | .baIterNext, s => if s.iter.toNat < 8 * s.fbLen.toNat then { s with iter := s.iter + 1 } else s
  | .baDump, s => s
  | .pkLe32 _, s => s
  | .pkFromle32 _ _ _ _, s => s
  | .pkConcat a d, s => s.construct (s.fb.writeBytes s.fbLen.toNat d) (s.fbLen.toNat + a.toNat)
  | .frBuild a d, s => s.construct (s.fb.writeBytes 0 (frame a.toNat d)) (4 + a.toNat)
  | .cmMap _, s => s
  | .pbLoad w h d, s => { s with pb := s.pb.writeBytes 0 d, width := w, height := h }
  | .pbDump, s => s
  | .pbLsbrd _, s => s
  | .pbLsbwr v a, s => { s with pb := s.pb.setLsb a.toNat (writeBit v) }
  | .cvMaxtotal _ _, s => s
  | .cvMaxpay _ _, s => s
  | .cvImgok _ _, s => s
  | .cvPayok _ _ _, s => s
  | .cdEncode a d, s => { s with pb := s.pb.embed (frame a.toNat d) (8 * (4 + a.toNat)) }
  | .cdDecode, s => s.construct (s.fb.writeBytes 0 (s.pb.extract 0 (s.pb.gather 0 32))) (s.pb.gather 0 32)

/-- The number the command returns. -/
def answer : Instr → State → Nat
  | .baInit a _, _ => a.toNat
  | .baLen, s => 8 * s.fbLen.toNat
  | .baRead a, s => (s.fb.bit (bitIndex a).toNat).toNat
  | .baWrite _ _, _ => 0
  | .baIterStart, _ => 0
  | .baIterNext, s => if s.iter.toNat < 8 * s.fbLen.toNat then (s.fb.bit s.iter.toNat).toNat else 2
  | .baDump, s => s.fbLen.toNat
  | .pkLe32 _, _ => 4
  | .pkFromle32 d0 d1 d2 d3, _ => leNat [d0, d1, d2, d3]
  | .pkConcat a _, s => s.fbLen.toNat + a.toNat
  | .frBuild a _, _ => 4 + a.toNat
  | .cmMap a, _ => offset a.toNat
  | .pbLoad w h _, _ => carrierLen w h
  | .pbDump, s => s.geometry
  | .pbLsbrd a, s => (s.pb.lsb a.toNat).toNat
  | .pbLsbwr _ _, _ => 0
  | .cvMaxtotal w h, _ => maxTotal w h
  | .cvMaxpay w h, _ => maxPayloadWord w h
  | .cvImgok w h, _ => if imgOk w h then 1 else 0
  | .cvPayok w h b, _ => if payOk w h b.toNat then 1 else 0
  | .cdEncode a _, _ => 4 + a.toNat
  | .cdDecode, s => s.pb.gather 0 32

/-- The bytes the command sends in `OUT`. -/
def output : Instr → State → List Byte
  | .baInit _ _, _ => []
  | .baLen, _ => []
  | .baRead _, _ => []
  | .baWrite _ _, _ => []
  | .baIterStart, _ => []
  | .baIterNext, _ => []
  | .baDump, s => s.fb.readBytes 0 s.fbLen.toNat
  | .pkLe32 a, _ => leBytes 4 a.toNat
  | .pkFromle32 _ _ _ _, _ => []
  | .pkConcat _ _, _ => []
  | .frBuild _ _, _ => []
  | .cmMap _, _ => []
  | .pbLoad _ _ _, _ => []
  | .pbDump, s => s.pb.readBytes 0 s.pbLen
  | .pbLsbrd _, _ => []
  | .pbLsbwr _ _, _ => []
  | .cvMaxtotal _ _, _ => []
  | .cvMaxpay _ _, _ => []
  | .cvImgok _ _, _ => []
  | .cvPayok _ _ _, _ => []
  | .cdEncode _ _, _ => []
  | .cdDecode, _ => []

/-- A command whose checks pass has its effect and answers. -/
theorem exec_of_admitted {i : Instr} {s : State} (h : admitted i s) :
    exec i s = done (answer i s) (output i s) (effect i s) := by
  cases i <;> simp only [admitted] at h
  all_goals try simp only [exec, answer, output, effect]
  case baInit => rw [execBaInit, needData_of_eq h.1, if_neg (by omega)]
  case baLen => rw [execBaLen]
  case baRead => rw [execBaRead, if_neg (by omega), if_neg (by omega), guardFb_of_le h.2.2]
  case baWrite => rw [execBaWrite, if_neg (by omega), if_neg (by omega), guardFb_of_le h.2.2]
  case baIterStart => rw [execBaIterStart]
  case baIterNext =>
    rw [execBaIterNext]
    split_ifs with h1
    · rw [guardFb_of_le (h h1)]
    · rfl
  case baDump => rw [execBaDump, guardFb_of_le h]
  case pkLe32 => rw [execPkLe32, if_neg (by omega)]
  case pkFromle32 => rw [execPkFromle32]
  case pkConcat => rw [execPkConcat, needData_of_eq h.1, if_neg (by omega)]
  case frBuild => rw [execFrBuild, needData_of_eq h.1, if_neg (by omega), if_neg (by omega)]
  case cmMap => rw [execCmMap, if_neg (by omega)]
  case pbLoad => rw [execPbLoad, needData_of_eq h.1, if_neg (by omega)]
  case pbDump => rw [execPbDump, guardPb_of_le h]
  case pbLsbrd => rw [execPbLsbrd, if_neg (by omega), guardPb_of_le h.2]
  case pbLsbwr => rw [execPbLsbwr, if_neg (by omega), guardPb_of_le h.2]
  case cvMaxtotal => rw [execCvMaxtotal]
  case cvMaxpay => rw [execCvMaxpay]
  case cvImgok => rw [execCvImgok]
  case cvPayok => rw [execCvPayok]
  case cdEncode =>
    obtain ⟨h1, h2, h3, h4, h5⟩ := h
    rw [execCdEncode, needData_of_eq h1]
    simp only [headerSize]
    rw [if_neg (by omega), if_neg h3, if_neg (by omega), guardPb_of_le h5]
  case cdDecode =>
    obtain ⟨h1, h2, h3, h4, h5⟩ := h
    rw [execCdDecode, guardPb_of_le h2]
    simp only [headerSize]
    rw [if_neg (by omega), if_neg h3, if_neg (by omega), guardFb_of_le h5]

/-- The first error condition of a command that holds, with its `RESULT`: the checks of each rule in the order of R90. -/
def errorOf : Instr → State → Option (Err × Nat)
  | .baInit a _, s => if a.toNat > s.params.fbMaxBytes then some (.fbTooSmall, 0) else none
  | .baLen, _ => none
  | .baRead a, s =>
    if bitIndex a < 0 then some (.indexNegative, 0)
    else if bitIndex a ≥ 8 * s.fbLen.toNat then some (.indexBeyond, 0) else none
  | .baWrite _ a, s =>
    if bitIndex a < 0 then some (.indexNegative, 0)
    else if bitIndex a ≥ 8 * s.fbLen.toNat then some (.indexBeyond, 0) else none
  | .baIterStart, _ => none
  | .baIterNext, _ => none
  | .baDump, _ => none
  | .pkLe32 a, _ => if a.toNat ≥ 2 ^ 32 then some (.operandRange, 0) else none
  | .pkFromle32 _ _ _ _, _ => none
  | .pkConcat a _, s => if s.fbLen.toNat + a.toNat > s.params.fbMaxBytes then some (.fbTooSmall, 0) else none
  | .frBuild a _, s =>
    if a.toNat ≥ 2 ^ 32 then some (.operandRange, 0)
    else if 4 + a.toNat > s.params.fbMaxBytes then some (.fbTooSmall, 0) else none
  | .cmMap a, _ => if a.toNat ≥ 2 ^ 48 then some (.operandRange, 0) else none
  | .pbLoad w h _, s => if carrierLen w h > s.params.pbMaxBytes then some (.pbTooSmall, 0) else none
  | .pbDump, _ => none
  | .pbLsbrd a, s => if offset a.toNat ≥ s.pbLen then some (.indexBeyond, 0) else none
  | .pbLsbwr _ a, s => if offset a.toNat ≥ s.pbLen then some (.indexBeyond, 0) else none
  | .cvMaxtotal _ _, _ => none
  | .cvMaxpay _ _, _ => none
  | .cvImgok _ _, _ => none
  | .cvPayok _ _ _, _ => none
  | .cdEncode a _, s =>
    if ¬ maxTotal s.width s.height > headerSize then some (.encodeTooSmall, 0)
    else if a.toNat = 0 then some (.payloadEmpty, maxTotal s.width s.height - 4)
    else if a.toNat > maxTotal s.width s.height - 4 then some (.payloadTooLarge, maxTotal s.width s.height - 4) else none
  | .cdDecode, s =>
    if ¬ maxTotal s.width s.height > headerSize then some (.decodeTooSmall, 0)
    else if s.pb.gather 0 32 = 0 then some (.headerZero, s.pb.gather 0 32)
    else if s.pb.gather 0 32 > maxTotal s.width s.height - 4 then some (.headerTooLarge, s.pb.gather 0 32) else none

/-- Everything a command can answer: the first error that holds, which only responds, or its own effect after its
checks. -/
theorem exec_cases {i : Instr} {s t : State} (h : exec i s = .next t) :
    (∃ (e : Err) (r : Nat), errorOf i s = some (e, r) ∧ t = s.respond e.status (BitVec.ofNat 64 r) []) ∨
    (admitted i s ∧ t = (effect i s).respond 0 (BitVec.ofNat 64 (answer i s)) (output i s)) := by
  by_cases hc : admitted i s
  · rw [exec_of_admitted hc, done_next] at h
    exact .inr ⟨hc, h⟩
  · left
    cases i <;> simp only [admitted] at hc <;>
      simp only [exec, execBaInit, execBaLen, execBaRead, execBaWrite, execBaIterStart, execBaIterNext, execBaDump,
        execPkLe32, execPkFromle32, execPkConcat, execFrBuild, execCmMap, execPbLoad, execPbDump, execPbLsbrd,
        execPbLsbwr, execCvMaxtotal, execCvMaxpay, execCvImgok, execCvPayok, execCdEncode, execCdDecode,
        needData_next] at h <;>
      try (exfalso; exact hc trivial)
    all_goals
      try obtain ⟨hd, h⟩ := h
      simp only [errorOf]
      (try split_ifs at h ⊢) <;> (try simp only [guardFb_next, guardPb_next] at h) <;>
        first
        | exact ⟨_, _, rfl, raise_next.1 h⟩
        | exact ⟨_, _, rfl, raise_next.1 h.2⟩
        | (exfalso; omega)


/-! What an effect never touches. -/

@[simp] theorem effect_params (i : Instr) (s : State) : (effect i s).params = s.params := by
  cases i <;> simp only [effect, State.construct_params]
  split_ifs <;> rfl

@[simp] theorem effect_inputs (i : Instr) (s : State) : (effect i s).inputs = s.inputs := by
  cases i <;> simp only [effect, State.construct_inputs]
  split_ifs <;> rfl

@[simp] theorem effect_sent (i : Instr) (s : State) : (effect i s).sent = s.sent := by
  cases i <;> simp only [effect, State.construct_sent]
  split_ifs <;> rfl

/-- R88: no error leaves 0 in `STATUS`. -/
theorem Err.status_ne_zero (e : Err) : e.status ≠ 0 := by cases e <;> decide

/-- A well-formed command whose first error condition is `e` raises it. -/
theorem exec_of_error {i : Instr} {s : State} {e : Err} {r : Nat} (hw : i.wf = true)
    (hpb : s.pbLen ≤ s.params.pbMaxBytes) (h : errorOf i s = some (e, r)) : exec i s = raise e r s := by
  cases i <;> simp only [Instr.wf, beq_iff_eq] at hw <;> simp only [errorOf] at h
  case baInit a d =>
    rw [exec, execBaInit, needData_of_eq hw]
    split_ifs at h ⊢
    cases h; rfl
  case baRead a =>
    rw [exec, execBaRead]
    split_ifs at h ⊢ <;> cases h <;> rfl
  case baWrite v a =>
    rw [exec, execBaWrite]
    split_ifs at h ⊢ <;> cases h <;> rfl
  case pkLe32 a =>
    rw [exec, execPkLe32]
    split_ifs at h ⊢
    cases h; rfl
  case pkConcat a d =>
    rw [exec, execPkConcat, needData_of_eq hw]
    split_ifs at h ⊢
    cases h; rfl
  case frBuild a d =>
    rw [exec, execFrBuild, needData_of_eq hw]
    split_ifs at h ⊢ <;> cases h <;> rfl
  case cmMap a =>
    rw [exec, execCmMap]
    split_ifs at h ⊢
    cases h; rfl
  case pbLoad w k d =>
    rw [exec, execPbLoad, needData_of_eq (show d.length = carrierLen w k from hw)]
    split_ifs at h ⊢
    cases h; rfl
  case pbLsbrd a =>
    rw [exec, execPbLsbrd]
    split_ifs at h ⊢
    cases h; rfl
  case pbLsbwr v a =>
    rw [exec, execPbLsbwr]
    split_ifs at h ⊢
    cases h; rfl
  case cdEncode a d =>
    rw [exec, execCdEncode, needData_of_eq hw]
    dsimp only
    split_ifs at h ⊢ <;> cases h <;> rfl
  case cdDecode =>
    rw [exec, execCdDecode, guardPb_of_le hpb]
    revert h
    generalize s.pb.gather 0 32 = n
    intro h
    dsimp only
    split_ifs at h ⊢ <;> cases h <;> rfl
  all_goals cases h

end Sys2Proof.Machine
end

