-- ==== Sys2Proof/Laws/PerInstr.lean ====
section
/-! SUPPORT. Statements about every command, made command by command. -/

open Sys2Proof

/-- R45, R52: a well-formed command is `4 + 8*nops + dlen` bytes long. -/
def Sys2Proof.Laws.EncodeLength.Statement (i : Instr) : Prop :=
  i.wf = true → (encode i).length = 4 + 8 * i.op.nops + i.op.dlen (i.operands.headD 0)

theorem Sys2Proof.Laws.EncodeLength.baInit (a : Word) (d : List Byte) :
    Sys2Proof.Laws.EncodeLength.Statement (.baInit a d) := by
  intro h
  simp only [Instr.wf, beq_iff_eq] at h
  simp [encode_eq, Instr.operands, Instr.data, Instr.op, Op.nops, Op.dlen, h]
  omega

theorem Sys2Proof.Laws.EncodeLength.baLen :
    Sys2Proof.Laws.EncodeLength.Statement .baLen := by
  intro _
  simp [encode_eq, Instr.operands, Instr.data, Instr.op, Op.nops, Op.dlen]

theorem Sys2Proof.Laws.EncodeLength.baRead (a : Word) :
    Sys2Proof.Laws.EncodeLength.Statement (.baRead a) := by
  intro _
  simp [encode_eq, Instr.operands, Instr.data, Instr.op, Op.nops, Op.dlen]

theorem Sys2Proof.Laws.EncodeLength.baWrite (v : Byte) (a : Word) :
    Sys2Proof.Laws.EncodeLength.Statement (.baWrite v a) := by
  intro _
  simp [encode_eq, Instr.operands, Instr.data, Instr.op, Op.nops, Op.dlen]

theorem Sys2Proof.Laws.EncodeLength.baIterStart :
    Sys2Proof.Laws.EncodeLength.Statement .baIterStart := by
  intro _
  simp [encode_eq, Instr.operands, Instr.data, Instr.op, Op.nops, Op.dlen]

theorem Sys2Proof.Laws.EncodeLength.baIterNext :
    Sys2Proof.Laws.EncodeLength.Statement .baIterNext := by
  intro _
  simp [encode_eq, Instr.operands, Instr.data, Instr.op, Op.nops, Op.dlen]

theorem Sys2Proof.Laws.EncodeLength.baDump :
    Sys2Proof.Laws.EncodeLength.Statement .baDump := by
  intro _
  simp [encode_eq, Instr.operands, Instr.data, Instr.op, Op.nops, Op.dlen]

theorem Sys2Proof.Laws.EncodeLength.pkLe32 (a : Word) :
    Sys2Proof.Laws.EncodeLength.Statement (.pkLe32 a) := by
  intro _
  simp [encode_eq, Instr.operands, Instr.data, Instr.op, Op.nops, Op.dlen]

theorem Sys2Proof.Laws.EncodeLength.pkFromle32 (d0 d1 d2 d3 : Byte) :
    Sys2Proof.Laws.EncodeLength.Statement (.pkFromle32 d0 d1 d2 d3) := by
  intro _
  simp [encode_eq, Instr.operands, Instr.data, Instr.op, Op.nops, Op.dlen]

theorem Sys2Proof.Laws.EncodeLength.pkConcat (a : Word) (d : List Byte) :
    Sys2Proof.Laws.EncodeLength.Statement (.pkConcat a d) := by
  intro h
  simp only [Instr.wf, beq_iff_eq] at h
  simp [encode_eq, Instr.operands, Instr.data, Instr.op, Op.nops, Op.dlen, h]
  omega

theorem Sys2Proof.Laws.EncodeLength.frBuild (a : Word) (d : List Byte) :
    Sys2Proof.Laws.EncodeLength.Statement (.frBuild a d) := by
  intro h
  simp only [Instr.wf, beq_iff_eq] at h
  simp [encode_eq, Instr.operands, Instr.data, Instr.op, Op.nops, Op.dlen, h]
  omega

theorem Sys2Proof.Laws.EncodeLength.cmMap (a : Word) :
    Sys2Proof.Laws.EncodeLength.Statement (.cmMap a) := by
  intro _
  simp [encode_eq, Instr.operands, Instr.data, Instr.op, Op.nops, Op.dlen]

theorem Sys2Proof.Laws.EncodeLength.pbLoad (w h : HWord) (d : List Byte) :
    Sys2Proof.Laws.EncodeLength.Statement (.pbLoad w h d) := by
  intro h
  simp only [Instr.wf, beq_iff_eq] at h
  simp [encode_eq, Instr.operands, Instr.data, Instr.op, Op.nops, Op.dlen, h]
  omega

theorem Sys2Proof.Laws.EncodeLength.pbDump :
    Sys2Proof.Laws.EncodeLength.Statement .pbDump := by
  intro _
  simp [encode_eq, Instr.operands, Instr.data, Instr.op, Op.nops, Op.dlen]

theorem Sys2Proof.Laws.EncodeLength.pbLsbrd (a : Word) :
    Sys2Proof.Laws.EncodeLength.Statement (.pbLsbrd a) := by
  intro _
  simp [encode_eq, Instr.operands, Instr.data, Instr.op, Op.nops, Op.dlen]

theorem Sys2Proof.Laws.EncodeLength.pbLsbwr (v : Byte) (a : Word) :
    Sys2Proof.Laws.EncodeLength.Statement (.pbLsbwr v a) := by
  intro _
  simp [encode_eq, Instr.operands, Instr.data, Instr.op, Op.nops, Op.dlen]

theorem Sys2Proof.Laws.EncodeLength.cvMaxtotal (w h : HWord) :
    Sys2Proof.Laws.EncodeLength.Statement (.cvMaxtotal w h) := by
  intro _
  simp [encode_eq, Instr.operands, Instr.data, Instr.op, Op.nops, Op.dlen]

theorem Sys2Proof.Laws.EncodeLength.cvMaxpay (w h : HWord) :
    Sys2Proof.Laws.EncodeLength.Statement (.cvMaxpay w h) := by
  intro _
  simp [encode_eq, Instr.operands, Instr.data, Instr.op, Op.nops, Op.dlen]

theorem Sys2Proof.Laws.EncodeLength.cvImgok (w h : HWord) :
    Sys2Proof.Laws.EncodeLength.Statement (.cvImgok w h) := by
  intro _
  simp [encode_eq, Instr.operands, Instr.data, Instr.op, Op.nops, Op.dlen]

theorem Sys2Proof.Laws.EncodeLength.cvPayok (w h : HWord) (b : Word) :
    Sys2Proof.Laws.EncodeLength.Statement (.cvPayok w h b) := by
  intro _
  simp [encode_eq, Instr.operands, Instr.data, Instr.op, Op.nops, Op.dlen]

theorem Sys2Proof.Laws.EncodeLength.cdEncode (a : Word) (d : List Byte) :
    Sys2Proof.Laws.EncodeLength.Statement (.cdEncode a d) := by
  intro h
  simp only [Instr.wf, beq_iff_eq] at h
  simp [encode_eq, Instr.operands, Instr.data, Instr.op, Op.nops, Op.dlen, h]
  omega

theorem Sys2Proof.Laws.EncodeLength.cdDecode :
    Sys2Proof.Laws.EncodeLength.Statement .cdDecode := by
  intro _
  simp [encode_eq, Instr.operands, Instr.data, Instr.op, Op.nops, Op.dlen]
end

