-- ==== Sys2Proof/Laws/Step.lean ====
section
/-! SUPPORT. What a step can do, by what the decoder finds, and runs of steps and of commands. -/

namespace Sys2Proof.Machine

/-! The input of the block. -/

@[simp] theorem leadingBytes_append (bs : List Byte) (rest : List HostInput) :
    leadingBytes (bs.map .byte ++ rest) = bs ++ leadingBytes rest := by
  induction bs with
  | nil => rfl
  | cons x xs ih => simp [leadingBytes, ih]

@[simp] theorem leadingBytes_bytes (bs : List Byte) : leadingBytes (bs.map .byte) = bs := by
  simpa [leadingBytes] using leadingBytes_append bs []

@[simp] theorem afterReset_append (bs : List Byte) (rest : List HostInput) :
    afterReset (bs.map .byte ++ rest) = afterReset rest := by
  induction bs with
  | nil => rfl
  | cons x xs ih => simpa [afterReset] using ih

@[simp] theorem afterReset_bytes (bs : List Byte) : afterReset (bs.map .byte) = none := by
  simpa [afterReset] using afterReset_append bs []

/-- The next thing the host does is no reset that falls in the command just taken. -/
theorem cutBy_eq_none {r : List HostInput} : cutBy r = none ↔ r.head? ≠ some .resetInCommand := by
  match r with
  | [] => simp [cutBy]
  | .byte _ :: _ => simp [cutBy]
  | .reset :: _ => simp [cutBy]
  | .resetInCommand :: _ => simp [cutBy]

theorem cutBy_eq_some {r rest : List HostInput} : cutBy r = some rest ↔ r = .resetInCommand :: rest := by
  match r with
  | [] => simp [cutBy]
  | .byte _ :: _ => simp [cutBy]
  | .reset :: _ => simp [cutBy]
  | .resetInCommand :: _ => simp [cutBy]

theorem State.drop_append (s : State) (bs : List Byte) (rest : List HostInput)
    (h : s.inputs = bs.map .byte ++ rest) : s.inputs.drop bs.length = rest := by
  rw [h, List.drop_left' (by simp)]

/-- A command that a host puts on the stream to run to its response is cut by no reset. -/
@[simp] theorem cutBy_settled (r : List HostInput) : cutBy (settled r) = none := by
  match r with
  | [] => rfl
  | .byte _ :: _ => rfl
  | .reset :: _ => rfl
  | .resetInCommand :: _ => rfl

theorem State.consume_append (s : State) (bs : List Byte) (rest : List HostInput)
    (h : s.inputs = bs.map .byte ++ rest) : s.consume bs.length = { s with inputs := rest } := by
  rw [State.consume, s.drop_append bs rest h]

/-! A step, by what the decoder finds. -/

theorem step_instr {s : State} {i : Instr} {n : Nat} (h : decode (leadingBytes s.inputs) = .instr i n) :
    step s = takeCommand n (exec i) s := by
  simp only [step, h]

theorem step_illegal {s : State} {e : Illegal} {n : Nat} (h : decode (leadingBytes s.inputs) = .illegal e n) :
    step s = takeCommand n (takeIllegal e) s := by
  simp only [step, h]

/-- A command that no reset falls in runs. -/
theorem takeCommand_uncut {n : Nat} {run : State → Result} {s : State} (h : cutBy (s.inputs.drop n) = none) :
    takeCommand n run s = run (s.consume n) := by
  simp only [takeCommand, h]

/-- A command that a reset falls in is abandoned (R101). -/
theorem takeCommand_cut {n : Nat} {run : State → Result} {s : State} {rest : List HostInput}
    (h : cutBy (s.inputs.drop n) = some rest) : takeCommand n run s = .next (s.applyReset rest) := by
  simp only [takeCommand, h]

/-- A legal command runs, if the host's next act is no reset in it. -/
theorem step_instr_uncut {s : State} {i : Instr} {n : Nat} (h : decode (leadingBytes s.inputs) = .instr i n)
    (hr : (s.inputs.drop n).head? ≠ some .resetInCommand) : step s = exec i (s.consume n) :=
  (step_instr h).trans (takeCommand_uncut (cutBy_eq_none.2 hr))

/-- A command that is no legal encoding raises, if the host's next act is no reset in it. -/
theorem step_illegal_uncut {s : State} {e : Illegal} {n : Nat} (h : decode (leadingBytes s.inputs) = .illegal e n)
    (hr : (s.inputs.drop n).head? ≠ some .resetInCommand) : step s = takeIllegal e (s.consume n) :=
  (step_illegal h).trans (takeCommand_uncut (cutBy_eq_none.2 hr))

/-- Everything a whole command that answers can do: it runs, or a reset abandons it. -/
theorem takeCommand_cases {n : Nat} {run : State → Result} {s t : State} (h : takeCommand n run s = .next t) :
    (cutBy (s.inputs.drop n) = none ∧ run (s.consume n) = .next t) ∨
    ∃ rest, cutBy (s.inputs.drop n) = some rest ∧ t = s.applyReset rest := by
  cases hc : cutBy (s.inputs.drop n) with
  | none => exact .inl ⟨rfl, (takeCommand_uncut hc).symm.trans h⟩
  | some rest => exact .inr ⟨rest, rfl, Host.Outcome.next.inj (h.symm.trans (takeCommand_cut hc))⟩

theorem step_reset {s : State} {rest : List HostInput} (h : decode (leadingBytes s.inputs) = .incomplete)
    (hr : afterReset s.inputs = some rest) : step s = .next (s.applyReset rest) := by
  simp only [step, h, takeNone, hr]

theorem step_wait {s : State} (h : decode (leadingBytes s.inputs) = .incomplete)
    (hr : afterReset s.inputs = none) : step s = .next s := by
  simp only [step, h, takeNone, hr]

/-- Where the step leaves off in the input when a reset is taken: the reset falls in a whole command, or comes before
the last byte of one. -/
def resetTaken (s : State) (rest : List HostInput) : Prop :=
  match decode (leadingBytes s.inputs) with
  | .instr _ n => cutBy (s.inputs.drop n) = some rest
  | .illegal _ n => cutBy (s.inputs.drop n) = some rest
  | .incomplete => afterReset s.inputs = some rest

/-- Everything a step that answers can do: a legal command runs, an illegal one raises, a reset is taken, or nothing
happens. -/
theorem step_cases {s t : State} (h : step s = .next t) :
    (∃ i n, decode (leadingBytes s.inputs) = .instr i n ∧ cutBy (s.inputs.drop n) = none ∧
      exec i (s.consume n) = .next t) ∨
    (∃ e n, decode (leadingBytes s.inputs) = .illegal e n ∧ cutBy (s.inputs.drop n) = none ∧
      t = (s.consume n).respond (illegalErr e).status 0 []) ∨
    (∃ rest, resetTaken s rest ∧ t = s.applyReset rest) ∨
    (decode (leadingBytes s.inputs) = .incomplete ∧ afterReset s.inputs = none ∧ t = s) := by
  unfold step at h
  unfold resetTaken
  split at h
  · rcases takeCommand_cases h with ⟨hc, hr⟩ | ⟨rest, hc, hr⟩
    · exact .inl ⟨_, _, ‹_›, hc, hr⟩
    · refine .inr (.inr (.inl ⟨rest, ?_, hr⟩))
      simp only [*]
  · rcases takeCommand_cases h with ⟨hc, hr⟩ | ⟨rest, hc, hr⟩
    · exact .inr (.inl ⟨_, _, ‹_›, hc, raise_next.1 hr⟩)
    · refine .inr (.inr (.inl ⟨rest, ?_, hr⟩))
      simp only [*]
  · unfold takeNone at h
    split at h
    · refine .inr (.inr (.inl ⟨_, ?_, (Host.Outcome.next.inj h).symm⟩))
      simp only [*]
    · exact .inr (.inr (.inr ⟨‹_›, ‹_›, (Host.Outcome.next.inj h).symm⟩))

/-- A step that takes a reset. -/
theorem step_of_resetTaken {s : State} {rest : List HostInput} (h : resetTaken s rest) :
    step s = .next (s.applyReset rest) := by
  cases hd : decode (leadingBytes s.inputs) with
  | instr i n => exact (step_instr hd).trans (takeCommand_cut (by simpa only [resetTaken, hd] using h))
  | illegal e n => exact (step_illegal hd).trans (takeCommand_cut (by simpa only [resetTaken, hd] using h))
  | incomplete => exact step_reset hd (by simpa only [resetTaken, hd] using h)

/-! Runs. -/

theorem core_run_next {s t : State} (k : Nat) (h : step s = .next t) :
    Host.Core.run Sys2Proof.core (k + 1) s = Host.Core.run Sys2Proof.core k t := by
  have run_of : ∀ (M : Host.Core) (u v : M.State), M.step u = .next v → M.run (k + 1) u = M.run k v := by
    intro M u v hu
    simp only [Host.Core.run, hu]
  exact run_of Sys2Proof.core s t h

theorem core_run_fault {s : State} {f : Fault} (k : Nat) (h : step s = .fault f) :
    Host.Core.run Sys2Proof.core (k + 1) s = .fault f := by
  have run_of : ∀ (M : Host.Core) (u : M.State) (g : M.Fault), M.step u = .fault g → M.run (k + 1) u = .fault g := by
    intro M u g hu
    simp only [Host.Core.run, hu]
  exact run_of Sys2Proof.core s f h

theorem core_run_refused {s : State} {r : Refusal} (k : Nat) (h : step s = .refused r) :
    Host.Core.run Sys2Proof.core (k + 1) s = .refused r := by
  have run_of : ∀ (M : Host.Core) (u : M.State) (q : M.Refusal), M.step u = .refused q →
      M.run (k + 1) u = .refused q := by
    intro M u q hu
    simp only [Host.Core.run, hu]
  exact run_of Sys2Proof.core s r h

theorem execAll_append (xs ys : List Instr) (s : State) :
    execAll (xs ++ ys) s =
      match execAll xs s with
      | .next t => execAll ys t
      | .fault f => .fault f
      | .refused r => .refused r := by
  induction xs generalizing s with
  | nil => rfl
  | cons x xs ih =>
    simp only [List.cons_append, execAll]
    cases exec x s <;> simp [ih]

end Sys2Proof.Machine
end

