-- ==== Sys2Proof/Machine/Asm.lean ====
section
/-! DEFINITION. The textual form of a command and the pseudo-instructions (spec/30_encoding.md R53). This is host software:
no step of the block reads it. -/

namespace Sys2Proof

/-- A hexadecimal digit of R53, capital as the listings of spec/95_test_vectors.md write it. -/
def hexDigit (n : Nat) : Char := (Nat.digitChar n).toUpper

/-- A byte as a hex pair. -/
def hexByte (x : Byte) : List Char := [hexDigit (x.toNat / 16), hexDigit (x.toNat % 16)]

/-- R53: data bytes, `x"hh hh .."`. -/
def dataText (d : List Byte) : List Char := ['x', '"'] ++ List.intercalate [' '] (d.map hexByte) ++ ['"']

/-- R53: an unsigned integer in decimal. -/
def natText (n : Nat) : List Char := Nat.toDigits 10 n

/-- R53: a signed index in decimal, `-` before a negative one. -/
def intText (n : Int) : List Char := if n < 0 then '-' :: natText n.natAbs else natText n.natAbs

/-- R53: `MNEMONIC op1, op2, ..`. -/
def lineText (m : String) (ops : List (List Char)) : List Char :=
  match ops with
  | [] => m.toList
  | _ :: _ => m.toList ++ [' '] ++ List.intercalate [',', ' '] ops

/-- R53: the textual form of each command. The count `A` of a command with `dlen = A` is not written: it is the number of
its data bytes. -/
def Instr.text : Instr → List Char
  | .baInit _ d => lineText "BA_INIT" [dataText d]
  | .baLen => lineText "BA_LEN" []
  | .baRead a => lineText "BA_READ" [intText a.toInt]
  | .baWrite v a => lineText "BA_WRITE" [intText a.toInt, natText v.toNat]
  | .baIterStart => lineText "BA_ITER_START" []
  | .baIterNext => lineText "BA_ITER_NEXT" []
  | .baDump => lineText "BA_DUMP" []
  | .pkLe32 a => lineText "PK_LE32" [natText a.toNat]
  | .pkFromle32 d0 d1 d2 d3 => lineText "PK_FROMLE32" [dataText [d0, d1, d2, d3]]
  | .pkConcat _ d => lineText "PK_CONCAT" [dataText d]
  | .frBuild _ d => lineText "FR_BUILD" [dataText d]
  | .cmMap a => lineText "CM_MAP" [natText a.toNat]
  | .pbLoad w h d => lineText "PB_LOAD" [natText w.toNat, natText h.toNat, dataText d]
  | .pbDump => lineText "PB_DUMP" []
  | .pbLsbrd a => lineText "PB_LSBRD" [natText a.toNat]
  | .pbLsbwr v a => lineText "PB_LSBWR" [natText a.toNat, natText v.toNat]
  | .cvMaxtotal w h => lineText "CV_MAXTOTAL" [natText w.toNat, natText h.toNat]
  | .cvMaxpay w h => lineText "CV_MAXPAY" [natText w.toNat, natText h.toNat]
  | .cvImgok w h => lineText "CV_IMGOK" [natText w.toNat, natText h.toNat]
  | .cvPayok w h b => lineText "CV_PAYOK" [natText w.toNat, natText h.toNat, natText b.toNat]
  | .cdEncode _ d => lineText "CD_ENCODE" [dataText d]
  | .cdDecode => lineText "CD_DECODE" []

/-- The pseudo-instructions of R53. -/
inductive Pseudo where
  /-- `BA_SET i`. -/
  | baSet (i : Word)
  /-- `BA_CLR i`. -/
  | baClr (i : Word)
  /-- `FR_HEADER n`. -/
  | frHeader (n : Word)
  /-- `CD_ENCODE_TEXT "s"`. -/
  | cdEncodeText (s : List Char)
  /-- `PB_LOAD_FILL w, h, c`. -/
  | pbLoadFill (w h : HWord) (c : Byte)
  deriving DecidableEq, Repr

/-- UTF-8, which the host does (R5, R53). PRESUMED, notes/assumptions/7.md: the spec does not state it. Safe: no step reads
it. -/
def utf8 (c : Char) : List Byte :=
  let n := c.toNat
  if n < 0x80 then [BitVec.ofNat 8 n]
  else if n < 0x800 then [BitVec.ofNat 8 (0xC0 + n / 64), BitVec.ofNat 8 (0x80 + n % 64)]
  else if n < 0x10000 then
    [BitVec.ofNat 8 (0xE0 + n / 4096), BitVec.ofNat 8 (0x80 + n / 64 % 64), BitVec.ofNat 8 (0x80 + n % 64)]
  else
    [BitVec.ofNat 8 (0xF0 + n / 262144), BitVec.ofNat 8 (0x80 + n / 4096 % 64), BitVec.ofNat 8 (0x80 + n / 64 % 64),
      BitVec.ofNat 8 (0x80 + n % 64)]

/-- R53: the expansions. -/
def Pseudo.expand : Pseudo → Instr
  | .baSet i => .baWrite 1 i
  | .baClr i => .baWrite 0 i
  | .frHeader n => .pkLe32 n
  | .cdEncodeText s => .cdEncode (BitVec.ofNat 64 (s.flatMap utf8).length) (s.flatMap utf8)
  | .pbLoadFill w h c => .pbLoad w h (List.replicate (4 * w.toNat * h.toNat) c)

/-! Reading the text. -/

/-- An operand of a line. -/
inductive Operand where
  /-- An integer. -/
  | int (n : Int)
  /-- Data bytes. -/
  | data (d : List Byte)
  /-- A quoted text. -/
  | text (s : List Char)
  deriving DecidableEq, Repr

/-- A digit in any base up to 16. -/
def digit (c : Char) : Option Nat :=
  if '0' ≤ c ∧ c ≤ '9' then some (c.toNat - '0'.toNat)
  else if 'a' ≤ c ∧ c ≤ 'f' then some (c.toNat - 'a'.toNat + 10)
  else if 'A' ≤ c ∧ c ≤ 'F' then some (c.toNat - 'A'.toNat + 10)
  else none

/-- Digits in base `b`, most significant first, after a value. -/
def readDigits (b : Nat) : Nat → List Char → Option Nat
  | n, [] => some n
  | n, c :: cs =>
    match digit c with
    | some k => if k < b then readDigits b (n * b + k) cs else none
    | none => none

/-- R53: an integer in decimal, or in hexadecimal written `0x..`. -/
def readNat : List Char → Option Nat
  | [] => none
  | ['0', 'x'] => none
  | '0' :: 'x' :: cs => readDigits 16 0 cs
  | c :: cs => readDigits 10 0 (c :: cs)

/-- Spaces at both ends dropped. -/
def strip (cs : List Char) : List Char := ((cs.dropWhile (· == ' ')).reverse.dropWhile (· == ' ')).reverse

/-- R53: hex byte pairs up to the closing quote, with no space among them. -/
def readPairs : List Char → Option (List Byte)
  | ['"'] => some []
  | c :: c' :: cs =>
    match digit c, digit c', readPairs cs with
    | some k, some k', some d => some (BitVec.ofNat 8 (16 * k + k') :: d)
    | some _, some _, none => none
    | some _, none, _ => none
    | none, _, _ => none
  | [_] => none
  | [] => none

/-- R53: data bytes, "hex byte pairs, spaces ignored". DESIGN CHOICE, notes/assumptions/7.md (safe: no step reads it): every
space between the quotes is ignored, one inside a pair too, so that `x"A 5"` is `x"A5"`. -/
def readData (cs : List Char) : Option (List Byte) := readPairs (cs.filter (· != ' '))

/-- R53: one operand. -/
def readOperand : List Char → Option Operand
  | 'x' :: '"' :: cs => (readData cs).map .data
  | '-' :: cs => (readNat cs).map fun n => .int (-(n : Int))
  | cs => (readNat cs).map fun n => .int n

/-- The operands of a line, parted at commas. -/
def partsOf : List Char → List Char → List (List Char)
  | acc, [] => [acc.reverse]
  | acc, ',' :: cs => acc.reverse :: partsOf [] cs
  | acc, c :: cs => partsOf (c :: acc) cs

/-- R53: what follows the mnemonic; a quoted text is one operand. DESIGN CHOICE, notes/assumptions/7.md (safe: no step reads
it): spaces before and after an operand are dropped, on either side of a comma too, and a comma needs none beside it. -/
def readOperands : List Char → Option (List Operand)
  | [] => some []
  | '"' :: cs => if cs.getLast? = some '"' then some [.text cs.dropLast] else none
  | cs => (partsOf [] cs).mapM fun p => readOperand (strip p)

/-- An unsigned operand of `n` bits. -/
def unsignedOperand (n : Nat) : Operand → Option (BitVec n)
  | .int k => if 0 ≤ k ∧ k < 2 ^ n then some (BitVec.ofInt n k) else none
  | .data _ => none
  | .text _ => none

/-- R53: a bit index, a negative one encoded as its 64-bit two's complement. -/
def indexOperand : Operand → Option Word
  | .int k => if -(2 ^ 63) ≤ k ∧ k < 2 ^ 63 then some (BitVec.ofInt 64 k) else none
  | .data _ => none
  | .text _ => none

/-- A command whose data bytes are counted by `A`. -/
def countedData (f : Word → List Byte → Instr) : List Operand → Option Instr
  | [.data d] => some (f (BitVec.ofNat 64 d.length) d)
  | _ => none

/-- A command without operands. -/
def noOperands (i : Instr) : List Operand → Option Instr
  | [] => some i
  | _ :: _ => none

/-- A command with one operand word. -/
def oneOperand (f : Word → Instr) (rd : Operand → Option Word) : List Operand → Option Instr
  | [x] => (rd x).map f
  | _ => none

/-- A command with a bit index and a bit. -/
def indexAndBit (f : Byte → Word → Instr) (rd : Operand → Option Word) : List Operand → Option Instr
  | [x, y] => (unsignedOperand 8 y).bind fun v => (rd x).map (f v)
  | _ => none

/-- A command with a geometry. -/
def geometryOperands (f : HWord → HWord → Instr) : List Operand → Option Instr
  | [x, y] => (unsignedOperand 32 x).bind fun w => (unsignedOperand 32 y).map (f w)
  | _ => none

/-- R53: the mnemonics, the pseudo-instructions among them, and what each makes of its operands. -/
def mnemonics : List (String × (List Operand → Option Instr)) :=
  [("BA_INIT", countedData .baInit), ("BA_LEN", noOperands .baLen), ("BA_READ", oneOperand .baRead indexOperand),
   ("BA_WRITE", indexAndBit .baWrite indexOperand), ("BA_ITER_START", noOperands .baIterStart),
   ("BA_ITER_NEXT", noOperands .baIterNext), ("BA_DUMP", noOperands .baDump),
   ("PK_LE32", oneOperand .pkLe32 (unsignedOperand 64)),
   ("PK_FROMLE32", fun ops =>
     match ops with
     | [.data [d0, d1, d2, d3]] => some (.pkFromle32 d0 d1 d2 d3)
     | _ => none),
   ("PK_CONCAT", countedData .pkConcat), ("FR_BUILD", countedData .frBuild),
   ("CM_MAP", oneOperand .cmMap (unsignedOperand 64))] ++
  [("PB_LOAD", fun ops =>
     match ops with
     | [x, y, .data d] =>
       (geometryOperands (fun w h => .pbLoad w h d) [x, y]).bind fun i => if i.wf then some i else none
     | _ => none),
   ("PB_DUMP", noOperands .pbDump), ("PB_LSBRD", oneOperand .pbLsbrd (unsignedOperand 64)),
   ("PB_LSBWR", indexAndBit .pbLsbwr (unsignedOperand 64)), ("CV_MAXTOTAL", geometryOperands .cvMaxtotal),
   ("CV_MAXPAY", geometryOperands .cvMaxpay), ("CV_IMGOK", geometryOperands .cvImgok),
   ("CV_PAYOK", fun ops =>
     match ops with
     | [x, y, z] => (unsignedOperand 64 z).bind fun n => geometryOperands (fun w h => .cvPayok w h n) [x, y]
     | _ => none),
   ("CD_ENCODE", countedData .cdEncode), ("CD_DECODE", noOperands .cdDecode)] ++
  [("BA_SET", oneOperand (fun i => Pseudo.expand (.baSet i)) indexOperand),
   ("BA_CLR", oneOperand (fun i => Pseudo.expand (.baClr i)) indexOperand),
   ("FR_HEADER", oneOperand (fun n => Pseudo.expand (.frHeader n)) (unsignedOperand 64)),
   ("CD_ENCODE_TEXT", fun ops =>
     match ops with
     | [.text s] => some (Pseudo.expand (.cdEncodeText s))
     | _ => none),
   ("PB_LOAD_FILL", fun ops =>
     match ops with
     | [x, y, z] =>
       (unsignedOperand 8 z).bind fun c => geometryOperands (fun w h => Pseudo.expand (.pbLoadFill w h c)) [x, y]
     | _ => none)]

/-- R53: the command a line of text stands for; none where the line is no such text. DESIGN CHOICE, notes/assumptions/7.md
(safe: no step reads it): spaces before the mnemonic and at the end of the line are dropped, and one space or more stands
between the mnemonic and its operands. -/
def readLine (line : List Char) : Option Instr :=
  let l := strip line
  let m := l.takeWhile (· != ' ')
  match mnemonics.find? (fun r => r.1.toList == m) with
  | some r => (readOperands (strip (l.drop m.length))).bind r.2
  | none => none

end Sys2Proof
end

