-- ==== Sys2Proof/Tests/Slice0.lean ====
section
/-! SUPPORT. Tests and witnesses. Every expected result comes from spec/95_test_vectors.md (the vector is named) or from
the rule named. -/

namespace Sys2Proof.Tests

open Sys2Proof Sys2Proof.Machine

/-! Helpers. -/

/-- A memory that holds these bytes from address 0 on. -/
def mem (bs : List Byte) : Memory := Memory.writeBytes [] 0 bs

/-- A block with these parameters that holds a BitArray. -/
def withFb (fbMax pbMax : Nat) (bs : List Byte) (iter : Word) : State :=
  { State.resetWith { fbMaxBytes := fbMax, pbMaxBytes := pbMax } with
    fb := mem bs, fbLen := BitVec.ofNat 64 bs.length, iter := iter }

/-- A block that holds a carrier. -/
def withPb (w h : HWord) (bs : List Byte) : State :=
  { State.resetWith { fbMaxBytes := 8, pbMaxBytes := 64 } with pb := mem bs, width := w, height := h }

/-- One step on a command's bytes. -/
def stepOn (bs : List Byte) (s : State) : Result := step (s.offerBytes bs)

/-- The response of a step. -/
def response : Result → Option (HWord × Word × List Byte)
  | .next t => t.sent.getLast?.map fun r => (r.status, r.result, r.out)
  | .fault _ => none
  | .refused _ => none

/-- The BitArray after a step: its bytes, its length, and the cursor. -/
def bitArray : Result → Option (List Byte × Nat × Nat)
  | .next t => some (t.fb.readBytes 0 t.fbLen.toNat, t.fbLen.toNat, t.iter.toNat)
  | .fault _ => none
  | .refused _ => none

/-- The carrier after a step: its bytes and its geometry. -/
def carrier : Result → Option (List Byte × Nat × Nat)
  | .next t => some (t.pb.readBytes 0 t.pbLen, t.width.toNat, t.height.toNat)
  | .fault _ => none
  | .refused _ => none

/-! WellFormed: an ill-formed term for each check (R42). -/

theorem test_wf_refuses_baInit : Instr.wf (.baInit 2 [0xA5]) = false := by decide
theorem test_wf_refuses_pkConcat : Instr.wf (.pkConcat 0 [0xA5]) = false := by decide
theorem test_wf_refuses_frBuild : Instr.wf (.frBuild 3 [0x48, 0x69]) = false := by decide
theorem test_wf_refuses_pbLoad : Instr.wf (.pbLoad 1 1 [0x10, 0x20, 0x30]) = false := by decide
theorem test_wf_refuses_cdEncode : Instr.wf (.cdEncode 1 []) = false := by decide
theorem test_exec_refuses_malformed :
    exec (.baInit 2 [0xA5]) State.reset = .refused .malformed := rfl

/-! Decode: a word of each family's commands, written out from the vectors. -/

theorem test_decode_bitarray :
    decode [0, 0, 0, 0x10, 1, 0, 0, 0, 0, 0, 0, 0, 0xA5] = .instr (.baInit 1 [0xA5]) 13 ∧
    decode [0, 0, 0, 0x11] = .instr .baLen 4 ∧
    decode [0, 0, 0, 0x12, 0xFF, 0xFF, 0xFF, 0xFF, 0xFF, 0xFF, 0xFF, 0xFF] =
      .instr (.baRead 0xFFFFFFFFFFFFFFFF) 12 ∧
    decode [0, 0, 0xFE, 0x13, 7, 0, 0, 0, 0, 0, 0, 0] = .instr (.baWrite 0xFE 7) 12 ∧
    decode [0, 0, 0, 0x14] = .instr .baIterStart 4 ∧
    decode [0, 0, 0, 0x15] = .instr .baIterNext 4 ∧
    decode [0, 0, 0, 0x16] = .instr .baDump 4 := by decide

theorem test_decode_packing :
    decode [0, 0, 0, 0x20, 0x78, 0x56, 0x34, 0x12, 0, 0, 0, 0] = .instr (.pkLe32 0x12345678) 12 ∧
    decode [0, 0, 0, 0x21, 0x78, 0x56, 0x34, 0x12] = .instr (.pkFromle32 0x78 0x56 0x34 0x12) 8 ∧
    decode [0, 0, 0, 0x22, 2, 0, 0, 0, 0, 0, 0, 0, 0x48, 0x69] = .instr (.pkConcat 2 [0x48, 0x69]) 14 ∧
    decode [0, 0, 0, 0x23, 0, 0, 0, 0, 0, 0, 0, 0] = .instr (.frBuild 0 []) 12 := by decide

theorem test_decode_carrier :
    decode [0, 0, 0, 0x30, 0x2F, 0, 0, 0, 0, 0, 0, 0] = .instr (.cmMap 47) 12 ∧
    decode [0, 0, 0, 0x31, 5, 0, 0, 0, 0, 0, 0, 0] = .instr (.pbLoad 0 5 []) 12 ∧
    decode [0, 0, 0, 0x31, 1, 0, 0, 0, 1, 0, 0, 0, 0x10, 0x20, 0x30, 0x40] =
      .instr (.pbLoad 1 1 [0x10, 0x20, 0x30, 0x40]) 16 ∧
    decode [0, 0, 0, 0x32] = .instr .pbDump 4 ∧
    decode [0, 0, 0, 0x33, 5, 0, 0, 0, 0, 0, 0, 0] = .instr (.pbLsbrd 5) 12 ∧
    decode [0, 0, 1, 0x34, 3, 0, 0, 0, 0, 0, 0, 0] = .instr (.pbLsbwr 1 3) 12 := by decide

theorem test_decode_capacity :
    decode [0, 0, 0, 0x40, 7, 0, 0, 0, 0, 0, 0, 0] = .instr (.cvMaxtotal 0 7) 12 ∧
    decode [0, 0, 0, 0x41, 5, 0, 0, 0, 2, 0, 0, 0] = .instr (.cvMaxpay 2 5) 12 ∧
    decode [0, 0, 0, 0x42, 0x0E, 0, 0, 0, 1, 0, 0, 0] = .instr (.cvImgok 1 14) 12 ∧
    decode [0, 0, 0, 0x43, 0x0E, 0, 0, 0, 1, 0, 0, 0, 1, 0, 0, 0, 0, 0, 0, 0] = .instr (.cvPayok 1 14 1) 20 := by
  decide

theorem test_decode_codec :
    decode [0, 0, 0, 0x50, 2, 0, 0, 0, 0, 0, 0, 0, 0x48, 0x69] = .instr (.cdEncode 2 [0x48, 0x69]) 14 ∧
    decode [0, 0, 0, 0x51] = .instr .cdDecode 4 := by decide

/-- P4 steps 10 and 12, K15: what is no legal encoding; and a command whose last byte has not come (R45). -/
theorem test_decode_illegal :
    decode [0, 0, 0, 0x17] = .illegal .undefinedOpcode 4 ∧
    decode [0, 0, 1, 0x14] = .illegal .reservedBits 4 ∧
    decode [1, 0, 0, 0x20, 1, 0, 0, 0, 0, 0, 0, 0] = .illegal .reservedBits 12 ∧
    decode [0, 0, 0, 0x50, 2, 0, 0, 0, 0, 0, 0, 0, 0x48] = .incomplete := by decide

theorem test_decode_table_words :
    decodeTableWord 32 0x10000000 = some (.baInit 0 []) ∧ decodeTableWord 32 0x13FE0000 = some (.baWrite 0xFE 0) ∧
    decodeTableWord 32 0x21000000 = some (.pkFromle32 0 0 0 0) ∧ decodeTableWord 32 0x31000000 = some (.pbLoad 0 0 []) ∧
    decodeTableWord 32 0x43000000 = some (.cvPayok 0 0 0) ∧ decodeTableWord 32 0x51000000 = some .cdDecode ∧
    decodeTableWord 32 0x52000000 = none ∧ decodeTableWord 32 0x51000001 = none := by decide

theorem test_fetch_word_runs :
    response (step (State.reset.withFetchWord 32 0x43000000)) = some (0, 0, []) ∧
    response (step (State.reset.withFetchWord 32 0x15000000)) = some (0, 2, []) := by decide

/-! The text of R53. -/

theorem test_text :
    Instr.text (.baRead 0xFFFFFFFFFFFFFFFF) = ['B', 'A', '_', 'R', 'E', 'A', 'D', ' ', '-', '1'] ∧
    Instr.text (.baInit 2 [0xA5, 0x00]) =
      ['B', 'A', '_', 'I', 'N', 'I', 'T', ' ', 'x', '"', 'A', '5', ' ', '0', '0', '"'] := by decide

theorem test_pseudo_expand :
    Pseudo.expand (.baSet 5) = .baWrite 1 5 ∧ Pseudo.expand (.baClr 5) = .baWrite 0 5 ∧
    Pseudo.expand (.frHeader 2) = .pkLe32 2 ∧ Pseudo.expand (.cdEncodeText ['H', 'i']) = .cdEncode 2 [0x48, 0x69] ∧
    Pseudo.expand (.pbLoadFill 1 1 0xFF) = .pbLoad 1 1 [0xFF, 0xFF, 0xFF, 0xFF] := by decide

/-- Lines of the vectors B10, B15, V20, M11, S2, and the spaces of notes/assumptions/7.md. -/
theorem test_readLine :
    readLine "BA_READ -1".toList = some (.baRead 0xFFFFFFFFFFFFFFFF) ∧
    readLine "BA_WRITE 7, 0xFE".toList = some (.baWrite 0xFE 7) ∧
    readLine "CV_PAYOK 4, 4, 0xFFFFFFFFFFFFFFFF".toList = some (.cvPayok 4 4 0xFFFFFFFFFFFFFFFF) ∧
    readLine "PB_LOAD 1, 1, x\"10 20 30 40\"".toList = some (.pbLoad 1 1 [0x10, 0x20, 0x30, 0x40]) ∧
    readLine "CD_ENCODE_TEXT \"Hi\"".toList = some (.cdEncode 2 [0x48, 0x69]) ∧
    readLine "BA_INIT x\"\"".toList = some (.baInit 0 []) ∧ readLine "BA_LEN".toList = some .baLen ∧
    readLine " BA_WRITE  7 ,0xFE ".toList = some (.baWrite 0xFE 7) ∧
    readLine "BA_INIT x\" A5 0 0\"".toList = some (.baInit 2 [0xA5, 0x00]) ∧
    readLine "BA_INIT x\"A5 0\"".toList = none ∧ readLine "BA_LEN 1".toList = none ∧ readLine "BA_NOP".toList = none := by decide

/-! BitArray, one step each. -/

/-- B1. -/
theorem test_baInit :
    response (stepOn [0, 0, 0, 0x10, 1, 0, 0, 0, 0, 0, 0, 0, 0xA5] State.reset) = some (0, 1, []) ∧
    bitArray (stepOn [0, 0, 0, 0x10, 1, 0, 0, 0, 0, 0, 0, 0, 0xA5] State.reset) = some ([0xA5], 1, 0) := by decide

/-- B3. -/
theorem test_baInit_too_small :
    response (stepOn [0, 0, 0, 0x10, 5, 0, 0, 0, 0, 0, 0, 0, 1, 2, 3, 4, 5] (withFb 4 0 [] 0)) = some (0x16, 0, []) := by
  decide

/-- B4. -/
theorem test_baLen : response (stepOn [0, 0, 0, 0x11] (withFb 8 64 [0xA5, 0] 0)) = some (0, 0x10, []) := by decide

/-- B13. -/
theorem test_baRead :
    response (stepOn [0, 0, 0, 0x12, 0x0F, 0, 0, 0, 0, 0, 0, 0] (withFb 8 64 [0, 0x80] 0)) = some (0, 1, []) := by decide

/-- B9, B11. -/
theorem test_baRead_errors :
    response (stepOn [0, 0, 0, 0x12, 8, 0, 0, 0, 0, 0, 0, 0] (withFb 8 64 [0xA5] 0)) = some (0x21, 0, []) ∧
    response (stepOn [0, 0, 0, 0x12, 0, 0, 0, 0, 0, 0, 0, 0x80] (withFb 8 64 [0xA5] 0)) = some (0x11, 0, []) := by decide

/-- B15. -/
theorem test_baWrite :
    bitArray (stepOn [0, 0, 0xFE, 0x13, 7, 0, 0, 0, 0, 0, 0, 0] (withFb 8 64 [0xA7] 0)) = some ([0x27], 1, 0) := by decide

/-- B19, B18. -/
theorem test_baWrite_second_byte_and_negative :
    bitArray (stepOn [0, 0, 1, 0x13, 9, 0, 0, 0, 0, 0, 0, 0] (withFb 8 64 [0, 0] 0)) = some ([0, 2], 2, 0) ∧
    response (stepOn [0, 0, 1, 0x13, 0xFF, 0xFF, 0xFF, 0xFF, 0xFF, 0xFF, 0xFF, 0xFF] (withFb 8 64 [0xA5] 0)) =
      some (0x11, 0, []) := by decide

/-- B20. -/
theorem test_baIterStart : bitArray (stepOn [0, 0, 0, 0x14] (withFb 8 64 [5] 2)) = some ([5], 1, 0) := by decide

/-- B21. -/
theorem test_baIterNext :
    response (stepOn [0, 0, 0, 0x15] (withFb 8 64 [5] 0)) = some (0, 1, []) ∧
    bitArray (stepOn [0, 0, 0, 0x15] (withFb 8 64 [5] 0)) = some ([5], 1, 1) := by decide

/-- B22. -/
theorem test_baIterNext_end :
    response (stepOn [0, 0, 0, 0x15] (withFb 8 64 [5] 8)) = some (0, 2, []) ∧
    bitArray (stepOn [0, 0, 0, 0x15] (withFb 8 64 [5] 8)) = some ([5], 1, 8) := by decide

/-- B26. -/
theorem test_baDump :
    response (stepOn [0, 0, 0, 0x16] (withFb 8 64 [0x48, 0x69] 0)) = some (0, 2, [0x48, 0x69]) := by decide

/-! Packing and frames. -/

/-- K1, K4. -/
theorem test_pkLe32 :
    response (stepOn [0, 0, 0, 0x20, 0x78, 0x56, 0x34, 0x12, 0, 0, 0, 0] State.reset) =
      some (0, 4, [0x78, 0x56, 0x34, 0x12]) ∧
    response (stepOn [0, 0, 0, 0x20, 0, 0, 0, 0, 1, 0, 0, 0] State.reset) = some (0x37, 0, []) := by decide

/-- K6. -/
theorem test_pkFromle32 :
    response (stepOn [0, 0, 0, 0x21, 0x78, 0x56, 0x34, 0x12] State.reset) = some (0, 0x12345678, []) := by decide

/-- K8. -/
theorem test_pkConcat :
    bitArray (stepOn [0, 0, 0, 0x22, 2, 0, 0, 0, 0, 0, 0, 0, 0x48, 0x69] (withFb 8 64 [2, 0, 0, 0] 5)) =
      some ([2, 0, 0, 0, 0x48, 0x69], 6, 0) := by decide

/-- K11. -/
theorem test_pkConcat_too_small :
    response (stepOn [0, 0, 0, 0x22, 2, 0, 0, 0, 0, 0, 0, 0, 4, 5] (withFb 4 0 [1, 2, 3] 0)) = some (0x16, 0, []) ∧
    bitArray (stepOn [0, 0, 0, 0x22, 2, 0, 0, 0, 0, 0, 0, 0, 4, 5] (withFb 4 0 [1, 2, 3] 0)) =
      some ([1, 2, 3], 3, 0) := by decide

/-- K12. -/
theorem test_frBuild :
    bitArray (stepOn [0, 0, 0, 0x23, 2, 0, 0, 0, 0, 0, 0, 0, 0x48, 0x69] (withFb 8 64 [] 0)) =
      some ([2, 0, 0, 0, 0x48, 0x69], 6, 0) := by decide

/-- K14. -/
theorem test_frBuild_too_small :
    response (stepOn [0, 0, 0, 0x23, 1, 0, 0, 0, 0, 0, 0, 0, 1] (withFb 4 0 [0x11] 0)) = some (0x16, 0, []) := by decide

/-! Channel mapper and carrier. -/

/-- M9, M10. -/
theorem test_cmMap :
    response (stepOn [0, 0, 0, 0x30, 0xFF, 0xFF, 0xFF, 0xFF, 0xFF, 0xFF, 0, 0] State.reset) =
      some (0, 0x1555555555554, []) ∧
    response (stepOn [0, 0, 0, 0x30, 0, 0, 0, 0, 0, 0, 1, 0] State.reset) = some (0x37, 0, []) := by decide

/-- M11. -/
theorem test_pbLoad :
    carrier (stepOn [0, 0, 0, 0x31, 1, 0, 0, 0, 1, 0, 0, 0, 0x10, 0x20, 0x30, 0x40] State.reset) =
      some ([0x10, 0x20, 0x30, 0x40], 1, 1) := by decide

/-- M13. -/
theorem test_pbLoad_too_small :
    response (stepOn ([0, 0, 0, 0x31, 2, 0, 0, 0, 2, 0, 0, 0] ++ List.replicate 16 0) (withFb 8 12 [] 0)) =
      some (0x26, 0, []) := by decide

/-- M14. -/
theorem test_pbDump :
    response (stepOn [0, 0, 0, 0x32] (withPb 1 1 [0x10, 0x20, 0x30, 0x40])) =
      some (0, 0x100000001, [0x10, 0x20, 0x30, 0x40]) := by decide

/-- M17, M19. -/
theorem test_pbLsbrd :
    response (stepOn [0, 0, 0, 0x33, 3, 0, 0, 0, 0, 0, 0, 0]
      (withPb 2 1 [0x10, 0x21, 0x30, 0x40, 0x51, 0x60, 0x70, 0x80])) = some (0, 1, []) ∧
    response (stepOn [0, 0, 0, 0x33, 6, 0, 0, 0, 0, 0, 0, 0]
      (withPb 2 1 [0x10, 0x21, 0x30, 0x40, 0x51, 0x60, 0x70, 0x80])) = some (0x21, 0, []) := by decide

/-- M22, M24. -/
theorem test_pbLsbwr :
    carrier (stepOn [0, 0, 0xFE, 0x34, 0, 0, 0, 0, 0, 0, 0, 0]
      (withPb 2 1 [0x11, 0x20, 0x30, 0x41, 0x50, 0x60, 0x70, 0x80])) =
      some ([0x10, 0x20, 0x30, 0x41, 0x50, 0x60, 0x70, 0x80], 2, 1) ∧
    carrier (stepOn [0, 0, 1, 0x34, 5, 0, 0, 0, 0, 0, 0, 0]
      (withPb 2 1 [0x10, 0x20, 0x30, 0x40, 0x50, 0x60, 0x70, 0x80])) =
      some ([0x10, 0x20, 0x30, 0x40, 0x50, 0x60, 0x71, 0x80], 2, 1) := by decide

/-! Capacity. -/

/-- V4, V5. -/
theorem test_cvMaxtotal :
    response (stepOn [0, 0, 0, 0x40, 0xFF, 0xFF, 0xFF, 0xFF, 0xFF, 0xFF, 0xFF, 0xFF] State.reset) =
      some (0, 0x5FFFFFFF40000000, []) ∧
    response (stepOn [0, 0, 0, 0x40, 0x0E, 0, 0, 0, 1, 0, 0, 0] State.reset) = some (0, 5, []) := by decide

/-- V7, V8. -/
theorem test_cvMaxpay :
    response (stepOn [0, 0, 0, 0x41, 1, 0, 0, 0, 1, 0, 0, 0] State.reset) = some (0, 0xFFFFFFFFFFFFFFFC, []) ∧
    response (stepOn [0, 0, 0, 0x41, 5, 0, 0, 0, 2, 0, 0, 0] State.reset) = some (0, 0xFFFFFFFFFFFFFFFF, []) := by decide

/-- V11, V12. -/
theorem test_cvImgok :
    response (stepOn [0, 0, 0, 0x42, 0x0D, 0, 0, 0, 1, 0, 0, 0] State.reset) = some (0, 0, []) ∧
    response (stepOn [0, 0, 0, 0x42, 0x0E, 0, 0, 0, 1, 0, 0, 0] State.reset) = some (0, 1, []) := by decide

/-- V16, V20. -/
theorem test_cvPayok :
    response (stepOn [0, 0, 0, 0x43, 4, 0, 0, 0, 4, 0, 0, 0, 2, 0, 0, 0, 0, 0, 0, 0] State.reset) = some (0, 1, []) ∧
    response (stepOn [0, 0, 0, 0x43, 4, 0, 0, 0, 4, 0, 0, 0, 0xFF, 0xFF, 0xFF, 0xFF, 0xFF, 0xFF, 0xFF, 0xFF] State.reset) =
      some (0, 0, []) := by decide

/-! Codec. -/

/-- The carrier of X5. -/
def x5 : List Byte :=
  [1, 0, 0, 0, 0, 0, 0, 0, 0, 0, 0, 0, 0, 0, 0, 0, 0, 0, 0, 0, 0, 0, 0, 0, 0, 0, 0, 0, 0, 0, 0, 0, 0, 0, 0, 0, 0, 0, 0, 0,
   0, 0, 1, 0, 0, 0, 0, 0, 0, 0, 1, 0, 0, 0, 0, 0]

/-- X5. -/
theorem test_cdEncode :
    response (stepOn [0, 0, 0, 0x50, 1, 0, 0, 0, 0, 0, 0, 0, 0x41] (withPb 1 14 [])) = some (0, 5, []) ∧
    carrier (stepOn [0, 0, 0, 0x50, 1, 0, 0, 0, 0, 0, 0, 0, 0x41] (withPb 1 14 [])) = some (x5, 1, 14) := by decide

/-- X3, X6, X7, X9. -/
theorem test_cdEncode_errors :
    response (stepOn [0, 0, 0, 0x50, 0, 0, 0, 0, 0, 0, 0, 0] (withPb 4 4 [])) = some (0x42, 2, []) ∧
    response (stepOn [0, 0, 0, 0x50, 2, 0, 0, 0, 0, 0, 0, 0, 0x41, 0x42] (withPb 1 14 [])) = some (0x32, 1, []) ∧
    response (stepOn [0, 0, 0, 0x50, 1, 0, 0, 0, 0, 0, 0, 0, 0x41] (withPb 1 13 [])) = some (0x12, 0, []) ∧
    response (stepOn [0, 0, 0, 0x50, 0, 0, 0, 0, 0, 0, 0, 0] (withPb 1 1 [])) = some (0x12, 0, []) := by decide

/-- X15. -/
theorem test_cdDecode :
    response (stepOn [0, 0, 0, 0x51] (withPb 1 14 x5)) = some (0, 1, []) ∧
    bitArray (stepOn [0, 0, 0, 0x51] (withPb 1 14 x5)) = some ([0x41], 1, 0) := by decide

/-- X11, X12, X13. -/
theorem test_cdDecode_errors :
    response (stepOn [0, 0, 0, 0x51] (withPb 1 1 [])) = some (0x22, 0, []) ∧
    response (stepOn [0, 0, 0, 0x51] (withPb 4 4 [])) = some (0x13, 0, []) ∧
    response (stepOn [0, 0, 0, 0x51] (withPb 4 4 [1, 1])) = some (0x23, 3, []) := by decide

/-! The host's side. -/

/-- R101: a reset before the last byte of a command. -/
theorem test_reset_abandons :
    step { withFb 8 64 [0xA5] 3 with inputs := [.byte 0, .byte 0, .reset, .byte 7] } =
      .next { withFb 8 64 [0xA5] 0 with fbLen := 0, inputs := [.byte 7] } := rfl

/-- R101: a reset while BA_ITER_NEXT, whole, executes or answers: no response, and the registers at their reset values. -/
theorem test_reset_in_command :
    step { withFb 8 64 [0xA5] 3 with
        inputs := [.byte 0, .byte 0, .byte 0, .byte 0x15, .resetInCommand, .byte 7] } =
      .next { withFb 8 64 [0xA5] 0 with fbLen := 0, inputs := [.byte 7] } := rfl

/-- A command that a host puts on the stream runs to its response before a reset that is to come. -/
theorem test_fetch_word_before_reset :
    response (step ({ withFb 8 64 [0xA5] 3 with inputs := [.resetInCommand] }.withFetchWord 32 0x15000000)) =
      some (0, 0, []) := by decide

/-- R45: the bytes of the response of X2. -/
theorem test_tx :
    State.tx { State.reset with sent := [{ status := 0x32, result := 2, out := [] }] } =
      [0x32, 0, 0, 0, 2, 0, 0, 0, 0, 0, 0, 0, 0, 0, 0, 0, 0, 0, 0, 0] := by decide

/-! Witnesses: for every statement with hypotheses, states and operands that meet them all together. -/

/-- A block that meets the invariant: the BitArray `48 69`, its cursor at bit 3, and the 1 by 14 carrier of X5. -/
def small : State :=
  { State.resetWith { fbMaxBytes := 8, pbMaxBytes := 64 } with
    fb := mem [0x48, 0x69], fbLen := 2, iter := 3, pb := mem x5, width := 1, height := 14 }

theorem witness_small_inv : small.Inv :=
  ⟨by decide, by decide, by decide, by decide, by unfold statusOk; decide, by decide, by decide, by decide, by decide⟩

theorem witness_wellFormed :
    Instr.wf (.baInit 1 [0xA5]) = true ∧ Instr.wf .cdDecode = true ∧ Instr.wf (.pbLoad 0 5 []) = true := by decide

theorem witness_DecodeOfEncode : Instr.wf (.cdEncode 2 [0x48, 0x69]) = true := by decide

theorem witness_EncodeOfDecode : decode [0, 0, 0, 0x11, 0xFF] = .instr .baLen 4 := by decide

/-- The mask of BA_WRITE lets any `v` through; that of BA_ITER_START does not. -/
theorem witness_HeaderSelects :
    decode [0, 0, 0xFE, 0x13, 7, 0, 0, 0, 0, 0, 0, 0] ≠ .incomplete ∧
    (0x13FE0000#32 &&& 0xFF00FFFF#32) = Op.baWrite.code.setWidth 32 <<< 24 ∧
    decode [0, 0, 1, 0x14] ≠ .incomplete ∧
    (0x14010000#32 &&& 0xFFFFFFFF#32) ≠ Op.baIterStart.code.setWidth 32 <<< 24 := by decide

theorem witness_ResponseStream :
    ∃ rs qs : List Response, rs ≠ [] ∧ (∀ r ∈ rs, r.out.length < 2 ^ 64) ∧ (∀ q ∈ qs, q.out.length < 2 ^ 64) ∧
      rs.flatMap Response.toBytes = qs.flatMap Response.toBytes :=
  ⟨[{ status := 0, result := 2, out := [0x48, 0x69] }], [{ status := 0, result := 2, out := [0x48, 0x69] }],
    by simp, by simp, by simp, rfl⟩

theorem witness_StepRuns :
    Instr.wf (.baRead 7) = true ∧
    (small.offerBytes [0, 0, 0, 0x12, 7, 0, 0, 0, 0, 0, 0, 0]).inputs = (encode (.baRead 7)).map .byte ++ [] ∧
    ([] : List HostInput).head? ≠ some .resetInCommand ∧ [HostInput.reset].head? ≠ some .resetInCommand := by decide

/-- The first and the last opcode of each range of R50. -/
theorem witness_UndefinedOpcode :
    ∀ h3 ∈ [0x00#8, 0x0F#8, 0x17#8, 0x1F#8, 0x24#8, 0x2F#8, 0x35#8, 0x3F#8, 0x44#8, 0x4F#8, 0x52#8, 0xFF#8],
      h3.toNat ≤ 0x0F ∨ 0x17 ≤ h3.toNat ∧ h3.toNat ≤ 0x1F ∨ 0x24 ≤ h3.toNat ∧ h3.toNat ≤ 0x2F ∨
        0x35 ≤ h3.toNat ∧ h3.toNat ≤ 0x3F ∨ 0x44 ≤ h3.toNat ∧ h3.toNat ≤ 0x4F ∨ 0x52 ≤ h3.toNat := by decide

/-- The opcodes beside those ranges are defined. -/
theorem witness_UndefinedOpcode_neighbours :
    ∀ h3 ∈ [0x10#8, 0x16#8, 0x20#8, 0x23#8, 0x30#8, 0x34#8, 0x40#8, 0x43#8, 0x50#8, 0x51#8],
      ¬ (h3.toNat ≤ 0x0F ∨ 0x17 ≤ h3.toNat ∧ h3.toNat ≤ 0x1F ∨ 0x24 ≤ h3.toNat ∧ h3.toNat ≤ 0x2F ∨
        0x35 ≤ h3.toNat ∧ h3.toNat ≤ 0x3F ∨ 0x44 ≤ h3.toNat ∧ h3.toNat ≤ 0x4F ∨ 0x52 ≤ h3.toNat) := by decide

/-- Clause (a): reserved bits not 0, and `v` not 0 where it is no operand (P4 step 12). -/
theorem witness_IllegalHeaders :
    Instr.wf .baIterStart = true ∧ (0x14010000#32).extractLsb' 24 8 = Instr.baIterStart.op.code ∧
    (0x14010000#32).extractLsb' 16 8 ≠ 0 ∧ (0x13FE0001#32).extractLsb' 24 8 = (Instr.baWrite 0xFE 0).op.code ∧
    (0x13FE0001#32).extractLsb' 0 16 ≠ 0 ∧
    (small.offerBytes [0, 0, 1, 0x14]).inputs =
      (leBytes 4 (0x14010000#32).toNat ++ (encode .baIterStart).drop 4).map .byte ++ [] := by decide

/-- Clauses (b) and (c): `2^32` and `2^48` are the first operands out of range. -/
theorem witness_OperandRange :
    2 ^ 32 ≤ (0x100000000 : Word).toNat ∧ ¬ 2 ^ 32 ≤ (0xFFFFFFFF : Word).toNat ∧
    2 ^ 48 ≤ (0x1000000000000 : Word).toNat ∧ ¬ 2 ^ 48 ≤ (0xFFFFFFFFFFFF : Word).toNat := by decide

theorem witness_FrBuild_range :
    (List.replicate (2 ^ 32) (0 : Byte)).length = (0x100000000 : Word).toNat ∧ 2 ^ 32 ≤ (0x100000000 : Word).toNat :=
  ⟨List.length_replicate, by decide⟩

theorem witness_IllegalCommand_status :
    ∃ t, exec (.cmMap 0x1000000000000) small = .next t ∧ (statusCode t.status).toNat = 7 :=
  ⟨_, rfl, by decide⟩

theorem witness_Partial :
    Instr.wf (.baRead 7) = true ∧ 11 < (encode (.baRead 7)).length ∧
    (small.offerBytes [0, 0, 0, 0x12, 7, 0, 0, 0, 0, 0, 0]).inputs = ((encode (.baRead 7)).take 11).map .byte := by decide

theorem witness_ResetAbandons :
    Instr.wf (.baRead 7) = true ∧
    ([.byte 0, .byte 0, .byte 0, .byte 0x12, .byte 7, .byte 0, .byte 0, .byte 0, .byte 0, .byte 0, .byte 0, .reset, .byte 7] :
      List HostInput) = ((encode (.baRead 7)).take 11).map .byte ++ .reset :: [.byte 7] ∧
    decode [1, 2, 3] = .incomplete ∧ decode [] = .incomplete := by decide

/-- Clauses (b) and (c): BA_ITER_NEXT, an undefined opcode, and BA_ITER_START with `v = 1`; and (d). -/
theorem witness_ResetInCommand :
    Instr.wf .baIterNext = true ∧
    ([.byte 0, .byte 0, .byte 0, .byte 0x15, .resetInCommand] : List HostInput) =
      (encode .baIterNext).map .byte ++ .resetInCommand :: [] ∧
    decode [0, 0, 0, 0x17] = .illegal .undefinedOpcode [(0 : Byte), 0, 0, 0x17].length ∧
    decode [0, 0, 1, 0x14] = .illegal .reservedBits [(0 : Byte), 0, 1, 0x14].length ∧
    ([.byte 0, .byte 0, .byte 0, .byte 0x15, .reset] : List HostInput) =
      (encode .baIterNext).map .byte ++ .reset :: [] := by decide

/-- The example parameters of R6 meet P1, P2 and P3, and so do the smallest. -/
theorem witness_ResetMeets : Params.sample.ok ∧ Params.ok { fbMaxBytes := 0, pbMaxBytes := 0 } := by decide

theorem witness_StepKeeps : ∃ t, step (small.offerBytes [0, 0, 0, 0x15]) = .next t := ⟨_, rfl⟩

theorem witness_MeaningsStop :
    Instr.wf (.baInit 2 [0xA5]) = false ∧ exec (.baInit 2 [0xA5]) small = .refused .malformed ∧
    exec .baDump { small with fbLen := 9 } = .fault .outsideFb := ⟨by decide, rfl, rfl⟩

/-- Two blocks that differ in bytes that nothing observes. -/
theorem witness_Unspecified :
    ∃ t : State, t ≠ small ∧ t.Inv ∧ small.SameVisible t ∧ ∃ s', step small = .next s' := by
  refine ⟨{ small with fb := mem [0x48, 0x69, 0x77] }, by decide, ?_, ?_, _, rfl⟩
  · exact ⟨by decide, by decide, by decide, by decide, by unfold statusOk; decide, by decide, by decide, by decide,
      by decide⟩
  · refine ⟨rfl, rfl, rfl, rfl, rfl, rfl, rfl, rfl, rfl, ?_, fun _ _ => rfl⟩
    unfold Memory.agreeBelow
    decide

theorem witness_Stream :
    (∀ i ∈ [Instr.baIterStart, .baIterNext], i.wf = true) ∧
    ({ small with inputs := [.byte 0, .byte 0, .byte 0, .byte 0x14, .byte 0, .byte 0, .byte 0, .byte 0x15] } : State).inputs =
      commandStream [.baIterStart, .baIterNext] ++ [] := by decide

/-- A command that succeeds and one that raises, for the statements about every command that answers. -/
theorem witness_Answers :
    (∃ t, exec .baIterNext small = .next t ∧ t.iter ≠ small.iter) ∧
    (∃ t, exec (.baRead 16) small = .next t ∧ t.status ≠ 0) ∧
    (∃ t, exec (.pbLoad 0 0 []) small = .next t ∧ t.width ≠ small.width ∧ t.height ≠ small.height) ∧
    (∃ t, exec .cdDecode small = .next t ∧ t.fbLen ≠ small.fbLen) :=
  ⟨⟨_, rfl, by decide⟩, ⟨_, rfl, by decide⟩, ⟨_, rfl, by decide, by decide⟩, ⟨_, rfl, by decide⟩⟩

theorem witness_Alpha :
    small.pb.wf = true ∧ (Instr.pbLsbwr 1 0).op ≠ .pbLoad ∧ ∃ t, exec (.pbLsbwr 1 0) small = .next t :=
  ⟨by decide, by decide, _, rfl⟩

/-- BA_INIT at `FB_MAX_BYTES = 8` data bytes and one more. -/
theorem witness_BaInit :
    (List.replicate 8 (0xFF : Byte)).length = (8 : Word).toNat ∧ (8 : Word).toNat ≤ small.params.fbMaxBytes ∧
    (List.replicate 9 (0xFF : Byte)).length = (9 : Word).toNat ∧ small.params.fbMaxBytes < (9 : Word).toNat := by decide

/-- BA_READ and BA_WRITE at the first and the last bit, just beyond, and at `-1` and `-2^63`. -/
theorem witness_BaRead_BaWrite :
    0 ≤ (0 : Word).toInt ∧ (0 : Word).toInt < 8 * small.fbLen.toNat ∧
    0 ≤ (15 : Word).toInt ∧ (15 : Word).toInt < 8 * small.fbLen.toNat ∧
    0 ≤ (16 : Word).toInt ∧ (8 * small.fbLen.toNat : Int) ≤ (16 : Word).toInt ∧
    (0xFFFFFFFFFFFFFFFF : Word).toInt < 0 ∧ (0x8000000000000000 : Word).toInt < 0 := by decide

/-- BA_ITER_NEXT at the last bit and at the end. -/
theorem witness_BaIterNext :
    ({ small with iter := 15 } : State).iter.toNat < 8 * small.fbLen.toNat ∧
    8 * small.fbLen.toNat ≤ ({ small with iter := 16 } : State).iter.toNat := by decide

theorem witness_BaIterNext_inv : State.Inv { small with iter := 15 } :=
  ⟨by decide, by decide, by decide, by decide, by unfold statusOk; decide, by decide, by decide, by decide, by decide⟩

theorem witness_PkFromle32 :
    ∃ t u, exec (.pkLe32 0x12345678) small = .next t ∧
      t.sent = small.sent ++ [{ status := 0, result := 4, out := [0x78, 0x56, 0x34, 0x12] }] ∧
      exec (.pkFromle32 0x78 0x56 0x34 0x12) t = .next u := ⟨_, _, rfl, by decide, rfl⟩

/-- PK_CONCAT and FR_BUILD up to `FB_MAX_BYTES = 8` bytes and one beyond. -/
theorem witness_PkConcat_FrBuild :
    (List.replicate 6 (0xFF : Byte)).length = (6 : Word).toNat ∧
    small.fbLen.toNat + (6 : Word).toNat ≤ small.params.fbMaxBytes ∧
    (List.replicate 7 (0xFF : Byte)).length = (7 : Word).toNat ∧
    small.params.fbMaxBytes < small.fbLen.toNat + (7 : Word).toNat ∧
    (List.replicate 4 (0xFF : Byte)).length = (4 : Word).toNat ∧ 4 + (4 : Word).toNat ≤ small.params.fbMaxBytes ∧
    (List.replicate 5 (0xFF : Byte)).length = (5 : Word).toNat ∧ small.params.fbMaxBytes < 4 + (5 : Word).toNat ∧
    (5 : Word).toNat < 2 ^ 32 := by decide

theorem witness_FrameBits :
    [(0x48 : Byte), 0x69].length = (2 : Word).toNat ∧
    ∃ t, exec (.frBuild 2 [0x48, 0x69]) small = .next t ∧ t.status = 0 := ⟨by decide, _, rfl, by decide⟩

/-- The smallest valid image and payload (K1, K3, V12, V21), for the clauses of CapacityConsequences. -/
theorem witness_Capacity :
    imgOk 1 14 = true ∧ imgOk 1 13 = false ∧ payOk 1 14 1 = true ∧ payOk 1 14 2 = false := by decide

/-- PB_LOAD of 64 bytes, the whole carrier space, and of 68. -/
theorem witness_PbLoad :
    (List.replicate 64 (0 : Byte)).length = 4 * (4 : HWord).toNat * (4 : HWord).toNat ∧
    4 * (4 : HWord).toNat * (4 : HWord).toNat ≤ small.params.pbMaxBytes ∧
    (List.replicate 68 (0 : Byte)).length = 4 * (1 : HWord).toNat * (17 : HWord).toNat ∧
    small.params.pbMaxBytes < 4 * (1 : HWord).toNat * (17 : HWord).toNat := by decide

/-- PB_LSBRD and PB_LSBWR at the last bit of a 1 by 14 carrier and just beyond (P3 step 14). -/
theorem witness_PbLsb :
    (41 : Word).toNat < 3 * small.width.toNat * small.height.toNat ∧
    3 * small.width.toNat * small.height.toNat ≤ (42 : Word).toNat := by decide

/-- CD_ENCODE on carriers of 13 and of 14 pixels, with no, one and two payload bytes (X3, X5, X6, X7). -/
theorem witness_CdEncode :
    3 * (1 : HWord).toNat * (13 : HWord).toNat / 8 ≤ 4 ∧ 4 < 3 * small.width.toNat * small.height.toNat / 8 ∧
    [(0x41 : Byte)].length = (1 : Word).toNat ∧ (1 : Word).toNat ≠ 0 ∧
    (1 : Word).toNat ≤ 3 * small.width.toNat * small.height.toNat / 8 - 4 ∧
    ([] : List Byte).length = (0 : Word).toNat ∧ [(0x41 : Byte), 0x42].length = (2 : Word).toNat ∧
    3 * small.width.toNat * small.height.toNat / 8 - 4 < (2 : Word).toNat := by decide

/-- CD_DECODE: the header of X5 is 1, which fits. -/
theorem witness_CdDecode :
    (1 : Nat) < 2 ^ 32 ∧ (∀ b, b < 32 → Nat.testBit 1 b = (small.pb.read (offset b)).getLsbD 0) ∧
    4 < 3 * small.width.toNat * small.height.toNat / 8 ∧
    (1 : Nat) ≤ 3 * small.width.toNat * small.height.toNat / 8 - 4 := by decide

/-- CD_DECODE: a header of 0, and one of 2, just beyond the capacity. -/
theorem witness_CdDecode_corrupt :
    (∀ b, b < 32 → Nat.testBit 0 b = ((mem []).read (offset b)).getLsbD 0) ∧
    (∀ b, b < 32 → Nat.testBit 2 b = ((mem [0, 1]).read (offset b)).getLsbD 0) ∧
    3 * small.width.toNat * small.height.toNat / 8 - 4 < 2 := by decide

theorem witness_CdDecode_corrupt_inv : State.Inv { small with pb := mem [] } ∧ State.Inv { small with pb := mem [0, 1] } :=
  ⟨⟨by decide, by decide, by decide, by decide, by unfold statusOk; decide, by decide, by decide, by decide, by decide⟩,
   ⟨by decide, by decide, by decide, by decide, by unfold statusOk; decide, by decide, by decide, by decide, by decide⟩⟩

theorem witness_BitReadAfterBitWrite :
    (∃ t, exec (.baWrite 0 15) small = .next t) ∧ (0 : Word) ≠ 15 := ⟨⟨_, rfl⟩, by decide⟩

theorem witness_DecodeReturns :
    [(0x42 : Byte)].length = (1 : Word).toNat ∧
    (1 : Word).toNat ≤ 3 * small.width.toNat * small.height.toNat / 8 - 4 ∧
    (∀ i ∈ [Instr.baIterNext, .pbDump], i.op ∉ [Op.pbLoad, .pbLsbwr, .cdEncode]) ∧
    ∃ t', execAll [.cdEncode 1 [0x42], .baIterNext, .pbDump] small = .next t' :=
  ⟨by decide, by decide, by decide, _, rfl⟩

/-- Two blocks with one carrier and different BitArrays. -/
theorem witness_CodecDependsOnly :
    ∃ t : State, t ≠ small ∧ small.params = t.params ∧ small.width = t.width ∧ small.height = t.height ∧
      small.pb = t.pb ∧ small.fb.wf = true ∧ t.fb.wf = true ∧
      (∃ s', exec (.cdEncode 1 [0x42]) small = .next s') ∧ ∃ s', exec .cdDecode small = .next s' ∧ s'.status = 0 :=
  ⟨{ small with fb := mem [1], fbLen := 1 }, by decide, rfl, rfl, rfl, rfl, by decide, by decide, ⟨_, rfl⟩, _, rfl,
    by decide⟩

end Sys2Proof.Tests
end

section
/-! PROOFS. The scope statements (spec/00_scope.md R10): no step stops from a state that meets the invariant, and
commands on the stream run one a step, in order. -/

namespace Sys2Proof.Machine

/-! The decoder gives well-formed commands, and gives a well-formed command back from its encoding. -/

/-- R47, R49: a command assembled from exactly `dlen` data bytes is well-formed. -/
theorem assemble_wf {o : Op} {a : Word} {d : List Byte} (v : Byte) (b : Word) (h : d.length = o.dlen a) :
    (assemble o v a b d).wf = true := by
  cases o <;> simp only [Op.dlen] at h <;> simp only [assemble, Instr.wf, beq_iff_eq, h]

theorem wf_of_decodeBody {o : Op} {hw : HWord} {rest : List Byte} {i : Instr} {n : Nat}
    (h : decodeBody o hw rest = .instr i n) : i.wf = true := by
  unfold decodeBody at h
  dsimp only at h
  split_ifs at h with hops hdata
  cases h
  exact assemble_wf _ _ (List.length_take_of_le (by omega))

/-- R42: the decoder gives only well-formed commands. -/
theorem wf_of_decode {bs : List Byte} {i : Instr} {n : Nat} (h : decode bs = .instr i n) : i.wf = true := by
  unfold decode at h
  split at h
  · dsimp only at h
    split at h
    · cases h
    · exact wf_of_decodeBody h
  · cases h

/-- R45: the encoding of a well-formed command decodes to it, whatever follows on the stream. -/
theorem decode_encode_append {i : Instr} (hw : i.wf = true) (r : List Byte) :
    decode (encode i ++ r) = .instr i (encode i).length := by
  have hbody : decodeBody i.op i.header (i.operandBytes ++ (i.data ++ r)) = .instr i (encode i).length := by
    rw [decodeBody_operands_data hw, if_pos (hdrOk_header i), hdrV_header, Instr.assemble_eq]
  rw [encode_parts, List.append_assoc, List.append_assoc, decode_header, hdrOpcode_header, Op.ofCode_code,
    ← encode_parts]
  exact hbody

/-! No command stops from a state that meets the invariant. -/

/-- I3 of R24. -/
theorem State.Inv.pbLen_le {s : State} (hs : s.Inv) : s.pbLen ≤ s.params.pbMaxBytes := hs.pbLenLe

/-- P1 of R6, R84: whatever payload the carrier can hold fits in `FB`. -/
theorem State.Inv.maxTotal_le_fbMaxBytes {s : State} (hs : s.Inv) :
    maxTotal s.width s.height ≤ s.params.fbMaxBytes :=
  (maxTotal_le_of_pbLen hs.pbLen_le).trans hs.paramsOk.1

/-- Taking bytes from the input touches nothing the invariant speaks of. -/
theorem State.Inv.consume {s : State} (hs : s.Inv) (n : Nat) : (s.consume n).Inv :=
  { hs with }

/-- R26, R32: a command that raises no error passes all its checks, and every byte it touches is there. -/
theorem admitted_of_errorOf_eq_none {i : Instr} {s : State} (hs : s.Inv) (hw : i.wf = true)
    (h : errorOf i s = none) : admitted i s := by
  have hfb := hs.fbLenLe
  have hpb := hs.pbLen_le
  have hmt := hs.maxTotal_le_fbMaxBytes
  cases i <;> simp only [Instr.wf, beq_iff_eq] at hw <;> simp only [errorOf, headerSize] at h <;>
    simp only [admitted]
  case baDump => exact hfb
  case pbDump => exact hpb
  case baIterNext => omega
  case baInit | pkConcat | frBuild | pbLoad =>
    split_ifs at h
    exact ⟨hw, by omega⟩
  case baRead | baWrite | pkLe32 | cmMap | pbLsbrd | pbLsbwr | cdEncode | cdDecode =>
    split_ifs at h
    omega

/-- R92: a well-formed command always answers: its first error is raised, or it succeeds. -/
theorem exec_total {i : Instr} {s : State} (hs : s.Inv) (hw : i.wf = true) : ∃ t, exec i s = .next t := by
  cases he : errorOf i s with
  | none => exact ⟨_, exec_of_admitted (admitted_of_errorOf_eq_none hs hw he)⟩
  | some er => exact ⟨_, exec_of_error hw hs.pbLen_le he⟩

/-- A whole command ends if its meaning does: a reset that falls in it ends it as well (R101). -/
theorem takeCommand_total {n : Nat} {run : State → Result} {s : State} (h : ∃ t, run (s.consume n) = .next t) :
    ∃ t, takeCommand n run s = .next t := by
  cases hc : cutBy (s.inputs.drop n) with
  | none => rwa [takeCommand_uncut hc]
  | some rest => exact ⟨_, takeCommand_cut hc⟩

/-- Settles O13, by what the decoder finds at the head of the stream. -/
theorem stepNeverStops : Obligations.StepNeverStops := by
  intro s hs
  cases hd : decode (leadingBytes s.inputs) with
  | instr i n =>
    rw [step_instr hd]
    exact takeCommand_total (exec_total (hs.consume n) (wf_of_decode hd))
  | illegal e n =>
    rw [step_illegal hd]
    exact takeCommand_total ⟨_, rfl⟩
  | incomplete =>
    cases hr : afterReset s.inputs with
    | none => exact ⟨s, step_wait hd hr⟩
    | some rest => exact ⟨_, step_reset hd hr⟩

/-! No command reads the input. -/

/-- The state with other input still to come. -/
def State.withInputs (s : State) (r : List HostInput) : State := { s with inputs := r }

/-- The outcome of a command with other input still to come. -/
def inputsReplaced (r : List HostInput) : Result → Result
  | .next t => .next (t.withInputs r)
  | .fault f => .fault f
  | .refused q => .refused q

section withInputs
variable (r : List HostInput) (s : State) (n : Nat) (k : Result)

@[simp] theorem State.withInputs_params : (s.withInputs r).params = s.params := rfl
@[simp] theorem State.withInputs_status : (s.withInputs r).status = s.status := rfl
@[simp] theorem State.withInputs_result : (s.withInputs r).result = s.result := rfl
@[simp] theorem State.withInputs_fbLen : (s.withInputs r).fbLen = s.fbLen := rfl
@[simp] theorem State.withInputs_iter : (s.withInputs r).iter = s.iter := rfl
@[simp] theorem State.withInputs_width : (s.withInputs r).width = s.width := rfl
@[simp] theorem State.withInputs_height : (s.withInputs r).height = s.height := rfl
@[simp] theorem State.withInputs_fb : (s.withInputs r).fb = s.fb := rfl
@[simp] theorem State.withInputs_pb : (s.withInputs r).pb = s.pb := rfl
@[simp] theorem State.withInputs_inputs : (s.withInputs r).inputs = r := rfl
@[simp] theorem State.withInputs_sent : (s.withInputs r).sent = s.sent := rfl
@[simp] theorem State.withInputs_pbLen : (s.withInputs r).pbLen = s.pbLen := rfl
@[simp] theorem State.withInputs_geometry : (s.withInputs r).geometry = s.geometry := rfl

/-- A construction neither reads nor writes the input. -/
@[simp] theorem State.construct_withInputs (fb : Memory) :
    (s.withInputs r).construct fb n = (s.construct fb n).withInputs r := rfl

/-- An update of the other fields is the same under other input: the form `simp` brings such an update to. -/
@[simp] theorem State.withInputs_mk (p st res len it w h fb pb ins sent) :
    (State.mk p st res len it w h fb pb ins sent).withInputs r = .mk p st res len it w h fb pb r sent := rfl

@[simp] theorem inputsReplaced_ite (c : Prop) [Decidable c] (x y : Result) :
    inputsReplaced r (if c then x else y) = if c then inputsReplaced r x else inputsReplaced r y :=
  apply_ite ..

@[simp] theorem inputsReplaced_done (out : List Byte) :
    inputsReplaced r (done n out s) = done n out (s.withInputs r) := rfl

@[simp] theorem inputsReplaced_raise (e : Err) : inputsReplaced r (raise e n s) = raise e n (s.withInputs r) := rfl

@[simp] theorem inputsReplaced_needData (d : List Byte) :
    inputsReplaced r (needData n d k) = needData n d (inputsReplaced r k) := inputsReplaced_ite ..

@[simp] theorem inputsReplaced_guardFb :
    inputsReplaced r (guardFb n s k) = guardFb n (s.withInputs r) (inputsReplaced r k) := inputsReplaced_ite ..

@[simp] theorem inputsReplaced_guardPb :
    inputsReplaced r (guardPb n s k) = guardPb n (s.withInputs r) (inputsReplaced r k) := inputsReplaced_ite ..

end withInputs

/-- R38: a command runs alike whatever is still to come on the input: the replacement moves through its checks, guards
and writes to its answer. -/
theorem exec_withInputs (i : Instr) (s : State) (r : List HostInput) :
    exec i (s.withInputs r) = inputsReplaced r (exec i s) := by
  cases i <;>
    simp [exec, execBaInit, execBaLen, execBaRead, execBaWrite, execBaIterStart, execBaIterNext, execBaDump,
      execPkLe32, execPkFromle32, execPkConcat, execFrBuild, execCmMap, execPbLoad, execPbDump, execPbLsbrd,
      execPbLsbwr, execCvMaxtotal, execCvMaxpay, execCvImgok, execCvPayok, execCdEncode, execCdDecode]
  case baIterNext => rfl

/-! Commands on the stream. -/

/-- R45: a well-formed command at the head of the stream runs, if the host's next act is no reset in it. -/
theorem step_encode {s : State} {i : Instr} {rest : List HostInput} (hw : i.wf = true)
    (h : s.inputs = (encode i).map .byte ++ rest) (hr : rest.head? ≠ some .resetInCommand) :
    step s = exec i (s.withInputs rest) := by
  have hd : decode (leadingBytes s.inputs) = .instr i (encode i).length := by
    rw [h, leadingBytes_append, decode_encode_append hw]
  have hrest := s.drop_append _ _ h
  rw [step_instr_uncut hd (by rwa [hrest]), s.consume_append _ _ h]
  rfl

theorem commandStream_cons (i : Instr) (is : List Instr) :
    commandStream (i :: is) = (encode i).map .byte ++ commandStream is := by
  simp only [commandStream, List.flatMap_cons, List.map_append]

/-- Only bytes stand on a command stream: the first reset, if any, comes after it. -/
theorem head?_commandStream_append {is : List Instr} {rest : List HostInput} (hr : rest.head? ≠ some .resetInCommand) :
    (commandStream is ++ rest).head? ≠ some .resetInCommand := by
  unfold commandStream
  cases is.flatMap encode with
  | nil => exact hr
  | cons x xs => simp

/-- R10, R14: each command runs on the state the one before left, with the rest of the stream still to come. -/
theorem run_commandStream {is : List Instr} {s : State} {rest : List HostInput} (hw : ∀ i ∈ is, i.wf = true)
    (hr : rest.head? ≠ some .resetInCommand) :
    Host.Core.run Sys2Proof.core is.length (s.withInputs (commandStream is ++ rest)) =
      execAll is (s.withInputs rest) := by
  induction is generalizing s with
  | nil => rfl
  | cons i is ih =>
    obtain ⟨hi, his⟩ := List.forall_mem_cons.1 hw
    have hstep : step (s.withInputs (commandStream (i :: is) ++ rest)) =
        inputsReplaced (commandStream is ++ rest) (exec i s) := by
      rw [step_encode hi (rest := commandStream is ++ rest) _ (head?_commandStream_append hr)]
      · exact exec_withInputs i s _
      · simp only [State.withInputs, commandStream_cons, List.append_assoc]
    have hexec := exec_withInputs i s rest
    cases he : exec i s <;> rw [he] at hstep hexec <;> simp only [execAll, hexec, inputsReplaced]
    case next t => exact (core_run_next _ hstep).trans (ih his)
    case fault f => exact core_run_fault _ hstep
    case refused q => exact core_run_refused _ hstep

/-- Settles O16, by induction on the commands. -/
theorem streamRunsCommandsInOrder : Obligations.StreamRunsCommandsInOrder := by
  intro is s rest hw hs hr
  have hself : s = s.withInputs (commandStream is ++ rest) := by rw [State.withInputs, ← hs]
  rw [hself]
  exact run_commandStream hw hr

end Sys2Proof.Machine
end

section
/-! PROOFS. The state statements (spec/10_state.md), the invariant: `STATUS` holds only the listed words, the reset state
meets the invariant, and every step keeps it. -/

namespace Sys2Proof.Machine

/-! The words left in `STATUS`. -/

/-- R17, R88: a word that the block leaves in `STATUS`: 0, or the word of an error. -/
def listedStatus (st : HWord) : Prop := st = 0 ∨ ∃ e : Err, st = e.status

theorem listedStatus_zero : listedStatus 0 := .inl rfl

theorem Err.listedStatus (e : Err) : listedStatus e.status := .inr ⟨e, rfl⟩

theorem statusOk_zero : statusOk 0 := by
  unfold statusOk
  decide

theorem Err.statusOk (e : Err) : statusOk e.status := by
  unfold Machine.statusOk
  cases e <;> decide

theorem exec_listedStatus {i : Instr} {s t : State} (h : exec i s = .next t) : listedStatus t.status := by
  obtain ⟨e, r, -, rfl⟩ | ⟨-, rfl⟩ := exec_cases h
  · exact e.listedStatus
  · exact listedStatus_zero

/-- R50, R51, R101: an illegal command leaves its error, or the reset that falls in it leaves 0. -/
theorem takeIllegal_listedStatus {s t : State} {e : Illegal} {n : Nat} (h : takeCommand n (takeIllegal e) s = .next t) :
    listedStatus t.status := by
  obtain ⟨-, hr⟩ | ⟨rest, -, rfl⟩ := takeCommand_cases h
  · obtain rfl := raise_next.1 hr
    exact (illegalErr e).listedStatus
  · exact listedStatus_zero

/-- Settles O20: every listed word has the fields of R17. -/
theorem statusHoldsOnlyListedValues : Obligations.StatusHoldsOnlyListedValues := by
  intro s t h
  have hst : listedStatus t.status := by
    obtain ⟨i, hi⟩ | ⟨e, n, hd, hs⟩ := h
    · exact exec_listedStatus hi
    · exact takeIllegal_listedStatus ((step_illegal hd).symm.trans hs)
  obtain h0 | ⟨e, he⟩ := hst
  · rw [h0]
    decide
  · rw [he]
    cases e <;> decide

/-! The invariant after each operation on the state. -/

/-- Settles O11: of the invariant, only the constraints of R6 are not facts about zeros and empty memories. -/
theorem resetMeetsTheInvariant : Obligations.ResetMeetsTheInvariant := by
  intro p hp
  have hinv : (State.resetWith p).Inv :=
    { paramsOk := hp
      fbLenLe := Nat.zero_le _
      iterLe := Nat.zero_le _
      pbLenLe := Nat.zero_le _
      status := statusOk_zero
      fbWf := rfl
      pbWf := rfl
      fbBelow := rfl
      pbBelow := rfl }
  exact ⟨hinv, rfl, rfl, rfl, rfl, rfl, rfl, rfl, rfl⟩

theorem State.Inv.respond {s : State} (hs : s.Inv) {st : HWord} (hst : statusOk st) (r : Word) (out : List Byte) :
    (s.respond st r out).Inv :=
  { hs with status := hst }

/-- R23, R101: a reset leaves zeros in every register that the invariant bounds. -/
theorem State.Inv.applyReset {s : State} (hs : s.Inv) (rest : List HostInput) : (s.applyReset rest).Inv :=
  { hs with
    fbLenLe := Nat.zero_le _
    iterLe := Nat.zero_le _
    pbLenLe := Nat.zero_le _
    status := statusOk_zero }

/-- R6 P3: a length that fits in `FB` fits in `FB_LEN`. -/
theorem State.Inv.toNat_ofNat {s : State} (hs : s.Inv) {n : Nat} (hn : n ≤ s.params.fbMaxBytes) :
    (BitVec.ofNat 64 n).toNat = n := by
  have := hs.paramsOk.2.2
  rw [BitVec.toNat_ofNat, Nat.mod_eq_of_lt (by omega)]

/-- R19: a construction that fits in `FB` keeps the invariant. -/
theorem State.Inv.construct {s : State} (hs : s.Inv) {k n : Nat} {ys : List Byte} (hk : k + ys.length = n)
    (hn : n ≤ s.params.fbMaxBytes) : (s.construct (s.fb.writeBytes k ys) n).Inv :=
  { hs with
    fbLenLe := (hs.toNat_ofNat hn).trans_le hn
    iterLe := Nat.zero_le _
    fbWf := Memory.writeBytes_wf hs.fbWf k ys
    fbBelow := Memory.writeBytes_below k ys hs.fbBelow (hk.trans_le hn) }

/-- R34: a bit written inside `FB` keeps the invariant. -/
theorem State.Inv.setBit {s : State} (hs : s.Inv) {b : Nat} (d : Bool) (hb : b / 8 < s.params.fbMaxBytes) :
    { s with fb := s.fb.setBit b d }.Inv :=
  { hs with
    fbWf := Memory.setBit_wf hs.fbWf b d
    fbBelow := Memory.setBit_below b d hs.fbBelow hb }

theorem State.Inv.setIter {s : State} (hs : s.Inv) {c : Word} (hc : c.toNat ≤ 8 * s.fbLen.toNat) :
    { s with iter := c }.Inv :=
  { hs with iterLe := hc }

/-- R71: a carrier that fits in `PB` keeps the invariant. -/
theorem State.Inv.load {s : State} (hs : s.Inv) {w h : HWord} {d : List Byte} (hd : d.length = carrierLen w h)
    (hpb : carrierLen w h ≤ s.params.pbMaxBytes) :
    { s with pb := s.pb.writeBytes 0 d, width := w, height := h }.Inv :=
  { hs with
    pbLenLe := hpb
    pbWf := Memory.writeBytes_wf hs.pbWf 0 d
    pbBelow := Memory.writeBytes_below 0 d hs.pbBelow (((Nat.zero_add _).trans hd).trans_le hpb) }

/-- R74: a bit written inside `PB` keeps the invariant. -/
theorem State.Inv.setLsb {s : State} (hs : s.Inv) {b : Nat} (d : Bool) (hb : offset b < s.params.pbMaxBytes) :
    { s with pb := s.pb.setLsb b d }.Inv :=
  { hs with
    pbWf := Memory.setLsb_wf hs.pbWf b d
    pbBelow := Memory.setLsb_below b d hs.pbBelow hb }

/-- R83: an embedding whose bits all lie in the carrier keeps the invariant. -/
theorem State.Inv.embed {s : State} (hs : s.Inv) {k : Nat} (f : List Byte) (hk : k ≤ usableBits s.width s.height) :
    { s with pb := s.pb.embed f k }.Inv :=
  { hs with
    pbWf := Memory.embed_wf hs.pbWf f k
    pbBelow := Memory.embed_below f k hs.pbBelow fun b hb =>
      ((offset_lt_carrierLen b s.width s.height).2 (by omega)).trans_le hs.pbLen_le }

/-- R20: while bits are left, the cursor after the next one is at most `8 * FB_LEN`, and `ITER` does not wrap (P3). -/
theorem State.Inv.iter_succ_le {s : State} (hs : s.Inv) (h : s.iter.toNat < 8 * s.fbLen.toNat) :
    (s.iter + 1).toNat ≤ 8 * s.fbLen.toNat := by
  have hp3 := hs.paramsOk.2.2
  have hfb := hs.fbLenLe
  rw [BitVec.toNat_add, show (1 : Word).toNat = 1 from rfl]
  omega

/-- The effect of a command whose checks pass keeps the invariant. -/
theorem State.Inv.effect {i : Instr} {s : State} (hs : s.Inv) (h : admitted i s) : (effect i s).Inv := by
  cases i <;> simp only [admitted] at h <;> simp only [Machine.effect]
  case baInit a d => exact hs.construct (by omega) h.2
  case baWrite v a => exact hs.setBit _ h.2.2
  case baIterStart => exact hs.setIter (Nat.zero_le _)
  case baIterNext =>
    split_ifs with hi
    · exact hs.setIter (hs.iter_succ_le hi)
    · exact hs
  case pkConcat a d => exact hs.construct (by omega) h.2
  case frBuild a d => exact hs.construct (by simp; omega) h.2.2
  case pbLoad w k d => exact hs.load h.1 h.2
  case pbLsbwr v a => exact hs.setLsb _ h.2
  case cdEncode a d =>
    obtain ⟨-, hm, -, hle, -⟩ := h
    exact hs.embed _ (frame_fits (by omega))
  case cdDecode =>
    obtain ⟨-, -, -, -, hfb⟩ := h
    exact hs.construct (by simp) hfb
  all_goals exact hs

/-- R24: every command keeps the invariant, whether it raises an error or has its effect. -/
theorem State.Inv.exec {i : Instr} {s t : State} (hs : s.Inv) (h : exec i s = .next t) : t.Inv := by
  obtain ⟨e, r, -, rfl⟩ | ⟨ha, rfl⟩ := exec_cases h
  · exact hs.respond e.statusOk _ _
  · exact (hs.effect ha).respond statusOk_zero _ _

/-- Settles O12, by what a step can do: a command runs, an illegal one raises, a reset is taken, or the block waits. -/
theorem stepKeepsTheInvariant : Obligations.StepKeepsTheInvariant := by
  intro s t hs h
  obtain ⟨i, n, -, -, he⟩ | ⟨e, n, -, -, rfl⟩ | ⟨rest, -, rfl⟩ | ⟨-, -, rfl⟩ := step_cases h
  · exact (hs.consume n).exec he
  · exact (hs.consume n).respond (illegalErr e).statusOk _ _
  · exact hs.applyReset rest
  · exact hs

end Sys2Proof.Machine
end

section
/-! PROOFS. The state statements (spec/10_state.md), what is never observed: the bytes beyond `FB_LEN` and `PB_LEN` (R23). -/

namespace Sys2Proof.Machine

/-! Memories that agree below a bound. -/

section agreeBelow
variable {n : Nat} {m m' : Memory}

theorem Memory.agreeBelow.mono {k : Nat} (h : Memory.agreeBelow n m m') (hk : k ≤ n) : Memory.agreeBelow k m m' :=
  fun j hj => h j (hj.trans_le hk)

theorem Memory.agreeBelow_zero (m m' : Memory) : Memory.agreeBelow 0 m m' := fun _ hk => absurd hk (Nat.not_lt_zero _)

theorem Memory.agreeBelow.bit (h : Memory.agreeBelow n m m') {i : Nat} (hi : i / 8 < n) : m.bit i = m'.bit i := by
  rw [Memory.bit, Memory.bit, h _ hi]

theorem Memory.agreeBelow.lsb (h : Memory.agreeBelow n m m') {b : Nat} (hb : offset b < n) : m.lsb b = m'.lsb b := by
  rw [Memory.lsb, Memory.lsb, h _ hb]

theorem Memory.agreeBelow.setBit (h : Memory.agreeBelow n m m') (hm : m.wf = true) (hm' : m'.wf = true) (i : Nat)
    (d : Bool) : Memory.agreeBelow n (m.setBit i d) (m'.setBit i d) := fun k hk => by
  rw [Memory.read_setBit hm, Memory.read_setBit hm', h k hk]

theorem Memory.agreeBelow.setLsb (h : Memory.agreeBelow n m m') (hm : m.wf = true) (hm' : m'.wf = true) (b : Nat)
    (d : Bool) : Memory.agreeBelow n (m.setLsb b d) (m'.setLsb b d) := fun k hk => by
  rw [Memory.read_setLsb hm, Memory.read_setLsb hm', h k hk]

theorem Memory.agreeBelow.embed (h : Memory.agreeBelow n m m') (hm : m.wf = true) (hm' : m'.wf = true) (f : List Byte)
    (k : Nat) : Memory.agreeBelow n (m.embed f k) (m'.embed f k) := by
  induction k with
  | zero => exact h
  | succ k ih => exact ih.setLsb (Memory.embed_wf hm f k) (Memory.embed_wf hm' f k) k _

/-- Bytes written at the end of the range extend the range on which the memories agree. -/
theorem Memory.agreeBelow.writeBytes (h : Memory.agreeBelow n m m') (hm : m.wf = true) (hm' : m'.wf = true)
    (ys : List Byte) : Memory.agreeBelow (n + ys.length) (m.writeBytes n ys) (m'.writeBytes n ys) := fun k hk => by
  rw [Memory.read_writeBytes hm, Memory.read_writeBytes hm']
  split_ifs with hin
  · rfl
  · exact h k (by omega)

end agreeBelow

/-! Operations on states that differ only beyond the valid ranges. -/

section SameVisible
variable {s t : State} (h : s.SameVisible t)
include h

theorem State.SameVisible.pbLen : s.pbLen = t.pbLen := by
  rw [State.pbLen, State.pbLen, h.width, h.height]

theorem State.SameVisible.geometry : s.geometry = t.geometry := by
  rw [State.geometry, State.geometry, h.width, h.height]

theorem State.SameVisible.respond (st : HWord) (r : Word) (out : List Byte) :
    (s.respond st r out).SameVisible (t.respond st r out) :=
  { h with
    status := rfl
    result := rfl
    sent := congrArg (· ++ _) h.sent }

theorem State.SameVisible.applyReset (rest : List HostInput) : (s.applyReset rest).SameVisible (t.applyReset rest) :=
  { h with
    status := rfl
    result := rfl
    fbLen := rfl
    iter := rfl
    width := rfl
    height := rfl
    inputs := rfl
    fb := Memory.agreeBelow_zero _ _
    pb := Memory.agreeBelow_zero _ _ }

theorem State.SameVisible.consume (n : Nat) : (s.consume n).SameVisible (t.consume n) :=
  { h with inputs := congrArg (List.drop n) h.inputs }

theorem State.SameVisible.resetTaken {rest : List HostInput} (hr : resetTaken s rest) : resetTaken t rest := by
  simpa only [Machine.resetTaken, h.inputs] using hr

/-- R19: a construction makes the bytes it keeps and the bytes it writes the valid range. -/
theorem State.SameVisible.construct {k : Nat} {ys : List Byte} (hk : Memory.agreeBelow k s.fb t.fb)
    (hs : s.fb.wf = true) (ht : t.fb.wf = true) {n : Nat} (hn : k + ys.length = n) :
    (s.construct (s.fb.writeBytes k ys) n).SameVisible (t.construct (t.fb.writeBytes k ys) n) :=
  { h with
    fbLen := rfl
    iter := rfl
    fb := (hk.writeBytes hs ht ys).mono (by simp [BitVec.toNat_ofNat, hn, Nat.mod_le]) }

theorem State.SameVisible.setIter (c : Word) : { s with iter := c }.SameVisible { t with iter := c } :=
  { h with iter := rfl }

/-! Reads of the valid range of the carrier. -/

/-- R69 M4: every usable bit of the carrier lies in its valid range. -/
theorem State.SameVisible.lsb {b : Nat} (hb : b < usableBits s.width s.height) : s.pb.lsb b = t.pb.lsb b :=
  h.pb.lsb ((offset_lt_carrierLen b s.width s.height).2 hb)

/-- R84: the header is read from a carrier that holds it. -/
theorem State.SameVisible.gather_header (hm : 4 < maxTotal s.width s.height) :
    s.pb.gather 0 32 = t.pb.gather 0 32 :=
  Memory.gather_congr 0 32 fun k hk => h.lsb (by have := maxTotal_le s.width s.height; omega)

/-- R84: the payload is read from a carrier that holds it. -/
theorem State.SameVisible.extract {n : Nat} (hn : 4 + n ≤ maxTotal s.width s.height) :
    s.pb.extract 0 n = t.pb.extract 0 n :=
  Memory.extract_congr n fun b hb => h.lsb (by have := frame_fits hn; omega)

/-! A command on states that differ only beyond the valid ranges. -/

theorem State.SameVisible.errorOf (i : Instr) : errorOf i s = errorOf i t := by
  cases i <;> simp only [Machine.errorOf, h.params, h.fbLen, h.width, h.height, h.pbLen]
  case cdDecode =>
    by_cases hm : maxTotal t.width t.height > headerSize
    · rw [h.gather_header (by rwa [h.width, h.height])]
    · rw [if_pos hm, if_pos hm]

theorem State.SameVisible.admitted {i : Instr} (ha : admitted i s) : admitted i t := by
  cases i <;> simp only [Machine.admitted, ← h.params, ← h.fbLen, ← h.iter, ← h.width, ← h.height, ← h.pbLen] at ha ⊢
  case cdDecode => rwa [← h.gather_header ha.1]
  all_goals exact ha

theorem State.SameVisible.answer {i : Instr} (ha : Machine.admitted i s) : answer i s = answer i t := by
  cases i <;> simp only [Machine.admitted] at ha <;> simp only [Machine.answer, h.fbLen, h.iter, h.geometry]
  case baRead a => rw [h.fb.bit (by omega)]
  case baIterNext =>
    split_ifs with hi
    · rw [h.fb.bit (by rw [h.fbLen]; omega)]
    · rfl
  case pbLsbrd a => rw [h.pb.lsb ha.1]
  case cdDecode => exact h.gather_header ha.1

theorem State.SameVisible.output (i : Instr) : output i s = output i t := by
  cases i <;> simp only [Machine.output]
  case baDump => rw [← h.fbLen, Memory.readBytes_congr h.fb]
  case pbDump => rw [← h.pbLen, Memory.readBytes_congr h.pb]

theorem State.SameVisible.effect {i : Instr} (hs : s.Inv) (ht : t.Inv) (ha : Machine.admitted i s) :
    (effect i s).SameVisible (effect i t) := by
  have hnone := Memory.agreeBelow_zero s.fb t.fb
  cases i <;> simp only [Machine.admitted] at ha <;> simp only [Machine.effect]
  case baInit a d => exact h.construct hnone hs.fbWf ht.fbWf (by omega)
  case baWrite v a => exact { h with fb := h.fb.setBit hs.fbWf ht.fbWf _ _ }
  case baIterStart => exact h.setIter 0
  case baIterNext =>
    have hcond : s.iter.toNat < 8 * s.fbLen.toNat ↔ t.iter.toNat < 8 * t.fbLen.toNat := by rw [h.iter, h.fbLen]
    simp only [hcond]
    split_ifs
    · rw [h.iter]
      exact h.setIter _
    · exact h
  case pkConcat a d =>
    rw [← h.fbLen]
    exact h.construct h.fb hs.fbWf ht.fbWf (by omega)
  case frBuild a d => exact h.construct hnone hs.fbWf ht.fbWf (by simp; omega)
  case pbLoad w k d =>
    have hpb := (Memory.agreeBelow_zero s.pb t.pb).writeBytes hs.pbWf ht.pbWf d
    rw [Nat.zero_add, ha.1] at hpb
    exact { h with width := rfl, height := rfl, pb := hpb }
  case pbLsbwr v a => exact { h with pb := h.pb.setLsb hs.pbWf ht.pbWf _ _ }
  case cdEncode a d => exact { h with pb := h.pb.embed hs.pbWf ht.pbWf _ _ }
  case cdDecode =>
    obtain ⟨hm, -, -, hle, -⟩ := ha
    rw [← h.gather_header hm, ← h.extract (by omega)]
    exact h.construct hnone hs.fbWf ht.fbWf (by simp)
  all_goals exact h

/-- R23: both states raise the same error, or both have the command's effect with the same answer. -/
theorem State.SameVisible.exec {i : Instr} {s' : State} (hs : s.Inv) (ht : t.Inv) (hw : i.wf = true)
    (he : exec i s = .next s') : ∃ t', exec i t = .next t' ∧ s'.SameVisible t' := by
  obtain ⟨e, r, her, rfl⟩ | ⟨ha, rfl⟩ := exec_cases he
  · rw [h.errorOf] at her
    exact ⟨_, exec_of_error hw ht.pbLen_le her, h.respond _ _ _⟩
  · refine ⟨_, exec_of_admitted (h.admitted ha), ?_⟩
    rw [← h.answer ha, ← h.output]
    exact (h.effect hs ht ha).respond _ _ _

end SameVisible

/-- Settles O15, by what a step can do: both blocks take the same from the same input. -/
theorem unspecifiedBytesAreNeverObserved : Obligations.UnspecifiedBytesAreNeverObserved := by
  intro s t s' hs ht h hstep
  obtain ⟨i, n, hd, hc, he⟩ | ⟨e, n, hd, hc, rfl⟩ | ⟨rest, hr, rfl⟩ | ⟨hd, hr, rfl⟩ := step_cases hstep
  · rw [h.inputs] at hd hc
    rw [step_instr hd, takeCommand_uncut hc]
    exact (h.consume n).exec (hs.consume n) (ht.consume n) (wf_of_decode hd) he
  · rw [h.inputs] at hd hc
    rw [step_illegal hd, takeCommand_uncut hc]
    exact ⟨_, rfl, (h.consume n).respond _ _ _⟩
  · exact ⟨_, step_of_resetTaken (h.resetTaken hr), h.applyReset rest⟩
  · rw [h.inputs] at hd hr
    exact ⟨t, step_wait hd hr, h⟩

end Sys2Proof.Machine
end

section
/-! PROOFS. The state statements (spec/10_state.md), what each command writes and reads: the registers (R16), `STATUS` and
`RESULT` (R22), and the carrier under the codec (R25). -/

namespace Sys2Proof.Machine

/-! No command reads `STATUS` or `RESULT`. -/

/-- Settles O19: no check, guard or effect of a command mentions `STATUS` or `RESULT`, and its response overwrites
both. -/
theorem noCommandReadsTheOutcome : Obligations.NoCommandReadsTheOutcome := by
  intro i s st r
  cases i <;> rfl

/-! The registers that an effect can change. -/

section effect
variable {i : Instr} (s : State)

theorem effect_fbLen (h : i.op ∉ [Op.baInit, .pkConcat, .frBuild, .cdDecode]) : (effect i s).fbLen = s.fbLen := by
  cases i <;> simp [Instr.op] at h <;> simp only [effect]
  case baIterNext => split_ifs <;> rfl

theorem effect_iter (h : i.op ∉ [Op.baInit, .pkConcat, .frBuild, .cdDecode, .baIterStart, .baIterNext]) :
    (effect i s).iter = s.iter := by
  cases i <;> simp [Instr.op] at h <;> rfl

theorem effect_width_height (h : i.op ≠ .pbLoad) :
    (effect i s).width = s.width ∧ (effect i s).height = s.height := by
  cases i <;> simp [Instr.op, effect] at h ⊢
  case baIterNext => split_ifs <;> simp

end effect

/-- R91: what every effect leaves alone, every command leaves alone: an error changes only `STATUS`, `RESULT` and the
responses. -/
theorem exec_field_eq {α : Sort*} (f : State → α) {i : Instr} {s t : State} (h : exec i s = .next t)
    (hrespond : ∀ (u : State) (st : HWord) (r : Word) (out : List Byte), f (u.respond st r out) = f u)
    (heffect : f (effect i s) = f s) : f t = f s := by
  obtain ⟨e, r, -, rfl⟩ | ⟨-, rfl⟩ := exec_cases h
  · exact hrespond ..
  · exact (hrespond ..).trans heffect

/-- Settles O17, register by register: a command not listed for a register has an effect that leaves it. -/
theorem registersWrittenOnlyByTheirCommands : Obligations.RegistersWrittenOnlyByTheirCommands := by
  refine ⟨fun p => ⟨rfl, rfl, rfl, rfl, rfl, rfl⟩, fun i s t h => ⟨?outcome, ?fbLen, ?iter, ?width, ?height, ?params⟩⟩
  case outcome => exact fun st r => (noCommandReadsTheOutcome i s st r).trans h
  case fbLen => exact not_imp_comm.1 fun hi => exec_field_eq State.fbLen h State.respond_fbLen (effect_fbLen s hi)
  case iter => exact not_imp_comm.1 fun hi => exec_field_eq State.iter h State.respond_iter (effect_iter s hi)
  case width =>
    exact not_imp_comm.1 fun hi => exec_field_eq State.width h State.respond_width (effect_width_height s hi).1
  case height =>
    exact not_imp_comm.1 fun hi => exec_field_eq State.height h State.respond_height (effect_width_height s hi).2
  case params => exact exec_field_eq State.params h State.respond_params (effect_params i s)

/-! The codec reads the command and the carrier. -/

/-- R25: two states with the same parameters and the same carrier. -/
structure State.SameCarrier (s t : State) : Prop where
  params : s.params = t.params
  width : s.width = t.width
  height : s.height = t.height
  pb : s.pb = t.pb

section SameCarrier
variable {s t : State} (h : s.SameCarrier t)
include h

theorem State.SameCarrier.pbLen : s.pbLen = t.pbLen := by
  rw [State.pbLen, State.pbLen, h.width, h.height]

/-- An error gives the same answer in both states and leaves the carrier alone (R91). -/
theorem State.SameCarrier.raise {e : Err} {r : Nat} {s' : State} (he : raise e r s = .next s') :
    ∃ t', raise e r t = .next t' ∧ t'.status = s'.status ∧ t'.result = s'.result ∧ t'.pb = s'.pb ∧ s'.status ≠ 0 := by
  obtain rfl := raise_next.1 he
  exact ⟨_, rfl, rfl, rfl, h.pb.symm, e.status_ne_zero⟩

/-- R86 E5 for CD_ENCODE. -/
theorem State.SameCarrier.exec_cdEncode {a : Word} {d : List Byte} {s' : State}
    (he : exec (.cdEncode a d) s = .next s') :
    ∃ t', exec (.cdEncode a d) t = .next t' ∧ t'.status = s'.status ∧ t'.result = s'.result ∧ t'.pb = s'.pb := by
  simp only [exec, execCdEncode, needData_next, h.width, h.height, h.pbLen] at he
  obtain ⟨hd, he⟩ := he
  simp only [exec, execCdEncode, needData_of_eq hd]
  split_ifs at he ⊢
  case neg =>
    rw [guardPb_next, done_next] at he
    obtain ⟨hpb, rfl⟩ := he
    exact ⟨_, guardPb_of_le (h.params ▸ hpb), rfl, rfl, congrArg (Memory.embed · _ _) h.pb.symm⟩
  all_goals
    obtain ⟨t', het, hst, hr, hpb, -⟩ := h.raise he
    exact ⟨t', het, hst, hr, hpb⟩

/-- R86 E5 for CD_DECODE, whose BitArray on success is the payload read from the carrier. -/
theorem State.SameCarrier.exec_cdDecode (hs : s.fb.wf = true) (ht : t.fb.wf = true) {s' : State}
    (he : exec .cdDecode s = .next s') :
    ∃ t', exec .cdDecode t = .next t' ∧ t'.status = s'.status ∧ t'.result = s'.result ∧ t'.pb = s'.pb ∧
      (s'.status = 0 → t'.fbLen = s'.fbLen ∧ ∀ k, k < s'.fbLen.toNat → t'.fb.read k = s'.fb.read k) := by
  have hpayload := (Memory.agreeBelow_zero s.fb t.fb).writeBytes hs ht (t.pb.extract 0 (t.pb.gather 0 32))
  rw [Nat.zero_add, Memory.extract_length] at hpayload
  simp only [exec, execCdDecode, h.width, h.height, h.pbLen, h.pb] at he
  simp only [exec, execCdDecode]
  generalize t.pb.gather 0 32 = n at *
  by_cases himg : maxTotal t.width t.height > headerSize
  · rw [if_neg (not_not_intro himg), guardPb_next] at he
    obtain ⟨hpb, he⟩ := he
    rw [if_neg (not_not_intro himg), guardPb_of_le (h.params ▸ hpb)]
    split_ifs at he ⊢
    case neg =>
      rw [guardFb_next, done_next] at he
      obtain ⟨hfb, rfl⟩ := he
      have hlen : (BitVec.ofNat 64 n).toNat ≤ n := by simp [BitVec.toNat_ofNat, Nat.mod_le]
      exact ⟨_, guardFb_of_le (h.params ▸ hfb), rfl, rfl, h.pb.symm,
        fun _ => ⟨rfl, fun k hk => (hpayload k (hk.trans_le hlen)).symm⟩⟩
    all_goals
      obtain ⟨t', het, hst, hr, hpb, hne⟩ := h.raise he
      exact ⟨t', het, hst, hr, hpb, fun h0 => absurd h0 hne⟩
  · rw [if_pos himg] at he ⊢
    obtain ⟨t', het, hst, hr, hpb, hne⟩ := h.raise he
    exact ⟨t', het, hst, hr, hpb, fun h0 => absurd h0 hne⟩

end SameCarrier

/-- Settles O52, command by command. -/
theorem codecDependsOnlyOnTheCarrier : Obligations.CodecDependsOnlyOnTheCarrier := by
  intro s t hp hw hh hb
  have h : s.SameCarrier t := ⟨hp, hw, hh, hb⟩
  exact ⟨fun _ _ _ => h.exec_cdEncode, fun _ hs ht => h.exec_cdDecode hs ht⟩

end Sys2Proof.Machine
end

section
/-! PROOFS. The memory statements (spec/20_memory.md): the commands that write `FB` and `PB` (R26, R33). -/

namespace Sys2Proof.Machine

/-! The buffers that an effect can change. -/

section effect
variable {i : Instr} (s : State)

theorem effect_fb (h : i.op ∉ [Op.baInit, .baWrite, .pkConcat, .frBuild, .cdDecode]) : (effect i s).fb = s.fb := by
  cases i <;> simp [Instr.op] at h <;> simp only [effect]
  case baIterNext => split_ifs <;> rfl

theorem effect_pb (h : i.op ∉ [Op.pbLoad, .pbLsbwr, .cdEncode]) : (effect i s).pb = s.pb := by
  cases i <;> simp [Instr.op] at h <;> simp only [effect, State.construct_pb]
  case baIterNext => split_ifs <;> rfl

end effect

/-- Settles O18: a command not listed for a buffer has an effect that leaves the whole buffer, and no effect takes from
the input. -/
theorem buffersWrittenOnlyByTheirCommands : Obligations.BuffersWrittenOnlyByTheirCommands := by
  intro i s t h
  refine ⟨fun hi k => ?fb, fun hi k => ?pb, ?inputs⟩
  case fb => exact congrArg (Memory.read · k) (exec_field_eq State.fb h State.respond_fb (effect_fb s hi))
  case pb => exact congrArg (Memory.read · k) (exec_field_eq State.pb h State.respond_pb (effect_pb s hi))
  case inputs => exact exec_field_eq State.inputs h State.respond_inputs (effect_inputs i s)

end Sys2Proof.Machine
end

section
/-! PROOFS. The encoding statements (spec/30_encoding.md), the decoder and the encoder: each undoes the other (R42, R45),
the rows' match and mask words (R48), the listed command words, and a command that is not all there (R45). -/

namespace Sys2Proof

/-! The parts of an assembled command. -/

section assemble
variable (o : Op) (v : Byte) (a b : Word) (d : List Byte)

@[simp] theorem Instr.op_assemble : (assemble o v a b d).op = o := by
  cases o <;> rfl

theorem Instr.operands_assemble : (assemble o v a b d).operands = [a, b].take o.nops := by
  cases o <;> simp [assemble, Instr.operands, Op.nops]

variable {o v a d}

theorem Instr.v_assemble (hv : o.usesV = false → v = 0) : (assemble o v a b d).v = v := by
  cases o <;> simp_all [assemble, Instr.v, Op.usesV]

theorem Instr.data_assemble (hd : d.length = o.dlen a) : (assemble o v a b d).data = d := by
  cases o <;> simp only [Op.dlen, List.length_eq_zero_iff] at hd <;> simp only [assemble, Instr.data, hd]
  case pkFromle32 =>
    obtain ⟨d0, d1, d2, d3, rfl⟩ := List.length_eq_four.1 hd
    rfl

end assemble

section body
variable {o : Op} {h : HWord} {rest d : List Byte}

theorem hdrOk_iff : hdrOk o h = true ↔ hdrReserved h = 0 ∧ (o.usesV = false → hdrV h = 0) := by
  cases hv : o.usesV <;> simp [hdrOk, hv]

/-- R43: a legal header is the header of the command assembled under it. -/
theorem Instr.header_assemble (a b : Word) (ho : hdrOpcode h = o.code) (hok : hdrOk o h = true) :
    (assemble o (hdrV h) a b d).header = h := by
  obtain ⟨hreserved, hv⟩ := hdrOk_iff.1 hok
  apply BitVec.eq_of_toNat_eq
  rw [Instr.header_toNat, Sys2Proof.header_toNat h, Instr.op_assemble, Instr.v_assemble b hv, ho, hreserved,
    BitVec.ofNat_eq_ofNat, BitVec.toNat_zero, Nat.add_zero]

/-- R45: the operand words read from a body are the bytes they are read from. -/
theorem Instr.operandBytes_assemble (v : Byte) (hops : 8 * o.nops ≤ rest.length) :
    (assemble o v (readWord rest) (readWord (rest.drop 8)) d).operandBytes = rest.take (8 * o.nops) := by
  have hn : o.nops = 0 ∨ o.nops = 1 ∨ o.nops = 2 := by cases o <;> decide
  rw [Instr.operandBytes, Instr.operands_assemble]
  obtain h0 | h1 | h2 := hn
  · simp [h0]
  · simp [h1, leBytes_readWord rest (by omega)]
  · have htake : rest.take 16 = rest.take 8 ++ (rest.drop 8).take 8 := List.take_add (i := 8) (j := 8)
    simp [h2, leBytes_readWord rest (by omega), leBytes_readWord (rest.drop 8) (by simp; omega), htake]

/-- R45: what a body is decoded to under a legal header is encoded as that header and body. -/
theorem encode_assemble (ho : hdrOpcode h = o.code) (hok : hdrOk o h = true) (hops : 8 * o.nops ≤ rest.length)
    (hd : d.length = o.dlen (readWord rest)) :
    encode (assemble o (hdrV h) (readWord rest) (readWord (rest.drop 8)) d) =
      leBytes 4 h.toNat ++ (rest.take (8 * o.nops) ++ d) := by
  rw [encode_parts, Instr.header_assemble _ _ ho hok, Instr.operandBytes_assemble _ hops, Instr.data_assemble _ hd]

/-- R45: a body that is no longer waited for has all its operand and data bytes. -/
theorem lengths_of_decodeBody_ne_incomplete (hc : decodeBody o h rest ≠ .incomplete) :
    8 * o.nops ≤ rest.length ∧ o.dlen (readWord rest) ≤ (rest.drop (8 * o.nops)).length := by
  rw [Ne, decodeBody_incomplete] at hc
  omega

theorem eq_encode_append_of_decodeBody {i : Instr} {n : Nat} (ho : hdrOpcode h = o.code)
    (hd : decodeBody o h rest = .instr i n) : ∃ r, leBytes 4 h.toNat ++ rest = encode i ++ r := by
  obtain ⟨hops, hdata⟩ := lengths_of_decodeBody_ne_incomplete (hd.trans_ne (by simp))
  rw [decodeBody_complete o h rest hops hdata] at hd
  split_ifs at hd with hok
  cases hd
  refine ⟨(rest.drop (8 * o.nops)).drop (o.dlen (readWord rest)), ?_⟩
  rw [encode_assemble ho hok hops (List.length_take_of_le hdata)]
  simp only [List.append_assoc, List.take_append_drop]

end body

/-! The header at the head of the stream. -/

theorem exists_header_append {bs : List Byte} (hl : 4 ≤ bs.length) :
    ∃ (h : HWord) (rest : List Byte), bs = leBytes 4 h.toNat ++ rest := by
  match bs with
  | h0 :: h1 :: h2 :: h3 :: rest => exact ⟨_, rest, congrArg (· ++ rest) (leBytes_headerWord h0 h1 h2 h3).symm⟩

theorem decode_of_length_lt {bs : List Byte} (hl : bs.length < 4) : decode bs = .incomplete := by
  match bs with
  | [] | [_] | [_, _] | [_, _, _] => rfl

/-- R45: after a header with a defined opcode the decoder reads that row's body. -/
theorem decode_of_opcode {o : Op} {h : HWord} (ho : hdrOpcode h = o.code) (rest : List Byte) :
    decode (leBytes 4 h.toNat ++ rest) = decodeBody o h rest := by
  rw [decode_header, ho, Op.ofCode_code]

/-- R50: after a header with an undefined opcode the decoder reads nothing. -/
theorem decode_of_undefined {h : HWord} (ho : Op.ofCode (hdrOpcode h) = none) (rest : List Byte) :
    decode (leBytes 4 h.toNat ++ rest) = .illegal .undefinedOpcode 4 := by
  rw [decode_header, ho]

/-- R42, R45: bytes that decode to a command begin with its encoding. -/
theorem eq_encode_append_of_decode {bs : List Byte} {i : Instr} {n : Nat} (hd : decode bs = .instr i n) :
    ∃ r, bs = encode i ++ r := by
  obtain hl | hl := Nat.lt_or_ge bs.length 4
  · rw [decode_of_length_lt hl] at hd
    cases hd
  · obtain ⟨h, rest, rfl⟩ := exists_header_append hl
    cases ho : Op.ofCode (hdrOpcode h) with
    | none =>
      rw [decode_of_undefined ho] at hd
      cases hd
    | some o =>
      have hcode := (Op.code_of_ofCode ho).symm
      rw [decode_of_opcode hcode] at hd
      exact eq_encode_append_of_decodeBody hcode hd

/-- R45: the decoder takes exactly the length of the encoding. -/
theorem length_encode_of_decode {bs : List Byte} {i : Instr} {n : Nat} (hd : decode bs = .instr i n) :
    n = (encode i).length := by
  obtain ⟨r, rfl⟩ := eq_encode_append_of_decode hd
  rw [Machine.decode_encode_append (Machine.wf_of_decode hd)] at hd
  exact (Decoded.instr.inj hd).2.symm

/-- Settles O2: the operand words and the data bytes of an encoding are read back whole. -/
theorem decodeOfEncodeIsTheCommand : Obligations.DecodeOfEncodeIsTheCommand :=
  fun _ rest hw => Machine.decode_encode_append hw rest

/-- Settles O3: the bytes are the encoding and a rest, of which the decoder takes the encoding. -/
theorem encodeOfDecodeIsTheBytes : Obligations.EncodeOfDecodeIsTheBytes := by
  intro bs i n hd
  obtain ⟨r, hr⟩ := eq_encode_append_of_decode hd
  refine ⟨Machine.wf_of_decode hd, ?_⟩
  rw [hr, length_encode_of_decode hd]
  exact List.take_left' rfl

/-! The match and mask words. -/

/-- R43: a header word is told by its three fields. -/
theorem header_eq_iff {h k : HWord} :
    h = k ↔ hdrOpcode h = hdrOpcode k ∧ hdrV h = hdrV k ∧ hdrReserved h = hdrReserved k := by
  refine ⟨by rintro rfl; simp, fun ⟨ho, hv, hr⟩ => BitVec.eq_of_toNat_eq ?_⟩
  rw [header_toNat h, header_toNat k, ho, hv, hr]

@[simp] theorem hdrOpcode_append (h0 h1 h2 h3 : Byte) : hdrOpcode (h3 ++ h2 ++ h1 ++ h0) = h3 := by
  rw [hdrOpcode, BitVec.extractLsb'_append_eq_of_le (by decide), BitVec.extractLsb'_append_eq_of_le (by decide)]
  exact BitVec.extractLsb'_append_eq_left

/-- R47, R49: the two rows whose header carries an operand. -/
theorem Op.usesV_iff {o : Op} : o.usesV = true ↔ o = .baWrite ∨ o = .pbLsbwr := by
  cases o <;> decide

/-- R48: the match word is a legal header of its row with `v = 0`. -/
theorem Op.fields_matchWord (o : Op) :
    hdrOpcode o.matchWord = o.code ∧ hdrV o.matchWord = 0 ∧ hdrReserved o.matchWord = 0 := by
  cases o <;> decide

/-- R48: the mask word keeps the opcode and the reserved field, and `v` where it is no operand. -/
theorem Op.fields_maskWord (o : Op) :
    hdrOpcode o.maskWord = BitVec.allOnes 8 ∧ hdrV o.maskWord = (if o.usesV then 0 else BitVec.allOnes 8) ∧
      hdrReserved o.maskWord = BitVec.allOnes 16 := by
  cases o <;> decide

/-- R48: a header meets a row's match and mask when its opcode is the row's and its fields that must be 0 are 0. -/
theorem and_maskWord_eq_matchWord {o : Op} {h : HWord} :
    h &&& o.maskWord = o.matchWord ↔ hdrOpcode h = o.code ∧ hdrOk o h = true := by
  obtain ⟨mo, mv, mr⟩ := o.fields_matchWord
  obtain ⟨ko, kv, kr⟩ := o.fields_maskWord
  have and_fields : hdrOpcode (h &&& o.maskWord) = hdrOpcode h &&& hdrOpcode o.maskWord ∧
      hdrV (h &&& o.maskWord) = hdrV h &&& hdrV o.maskWord ∧
      hdrReserved (h &&& o.maskWord) = hdrReserved h &&& hdrReserved o.maskWord :=
    ⟨BitVec.extractLsb'_and, BitVec.extractLsb'_and, BitVec.extractLsb'_and⟩
  obtain ⟨ao, av, ar⟩ := and_fields
  rw [header_eq_iff, ao, av, ar, mo, mv, mr, ko, kv, kr, hdrOk_iff]
  cases hv : o.usesV
  · simp only [Bool.false_eq_true, if_false, BitVec.and_allOnes, true_imp_iff, and_comm]
  · simp only [if_true, BitVec.and_allOnes, Bool.true_eq_false, false_imp_iff, and_true, and_congr_right_iff]
    simp

/-- R48: a whole command is one of row `o` exactly when its header has that opcode and is legal. -/
theorem decode_instr_op_iff {o : Op} {h : HWord} {rest : List Byte}
    (hc : decode (leBytes 4 h.toNat ++ rest) ≠ .incomplete) :
    (∃ i n, decode (leBytes 4 h.toNat ++ rest) = .instr i n ∧ i.op = o) ↔ hdrOpcode h = o.code ∧ hdrOk o h = true := by
  cases ho : Op.ofCode (hdrOpcode h) with
  | none =>
    rw [decode_of_undefined ho]
    simp [Op.ofCode_none.1 ho o |>.symm]
  | some p =>
    have hcode := (Op.code_of_ofCode ho).symm
    rw [decode_of_opcode hcode] at hc ⊢
    obtain ⟨hops, hdata⟩ := lengths_of_decodeBody_ne_incomplete hc
    rw [decodeBody_complete p h rest hops hdata]
    obtain rfl | hne := eq_or_ne p o
    · split_ifs with hok <;> simp [hcode, hok]
    · have hother : hdrOpcode h ≠ o.code := fun h' => hne (Op.code_injective (hcode.symm.trans h'))
      split_ifs <;> simp [hne, hother]

/-- R51: a whole command under an illegal header of a defined opcode is IllegalCommand context 2. -/
theorem decode_reservedBits {o : Op} {h : HWord} {rest : List Byte}
    (hc : decode (leBytes 4 h.toNat ++ rest) ≠ .incomplete) (ho : hdrOpcode h = o.code) (hok : ¬ hdrOk o h = true) :
    ∃ n, decode (leBytes 4 h.toNat ++ rest) = .illegal .reservedBits n := by
  rw [decode_of_opcode ho] at hc ⊢
  obtain ⟨hops, hdata⟩ := lengths_of_decodeBody_ne_incomplete hc
  exact ⟨_, (decodeBody_complete o h rest hops hdata).trans (if_neg hok)⟩

/-- Settles O4: the match and mask words ask of a header what the decoder asks of it. -/
theorem headerSelectsByMatchAndMask : Obligations.HeaderSelectsByMatchAndMask := by
  intro o h0 h1 h2 h3 rest hc hw mask
  have hbytes : h0 :: h1 :: h2 :: h3 :: rest = leBytes 4 hw.toNat ++ rest := by
    simp only [hw, ← headerWord_eq, leBytes_headerWord, List.cons_append, List.nil_append]
  have hmask : mask = o.maskWord := by simp only [mask, Op.maskWord, Op.usesV_iff]
  have hselects : hw &&& mask = o.code.setWidth 32 <<< 24 ↔ hdrOpcode hw = o.code ∧ hdrOk o hw = true :=
    hmask ▸ and_maskWord_eq_matchWord
  have hopcode : hdrOpcode hw = h3 := hdrOpcode_append h0 h1 h2 h3
  rw [hbytes] at hc ⊢
  rw [Ne, hselects]
  exact ⟨decode_instr_op_iff hc, fun h3o hno =>
    decode_reservedBits hc (hopcode.trans h3o) fun hok => hno ⟨hopcode.trans h3o, hok⟩⟩

/-! The listed command words. -/

/-- Settles O1: the decoder is run on each vector's bytes. -/
theorem specWordsDecodeAsListed : Obligations.SpecWordsDecodeAsListed := by
  unfold Obligations.SpecWordsDecodeAsListed
  decide

/-! A command that is not all there. -/

/-- R45: a proper part of an encoding lacks header, operand or data bytes. -/
theorem decode_take_encode {i : Instr} {k : Nat} (hw : i.wf = true) (hk : k < (encode i).length) :
    decode ((encode i).take k) = .incomplete := by
  obtain hheader | hheader := Nat.lt_or_ge k 4
  · exact decode_of_length_lt ((List.length_take_le ..).trans_lt hheader)
  have hlen := congrArg List.length (encode_parts i)
  simp only [List.length_append, leBytes_length, Instr.operandBytes_length] at hlen
  rw [encode_parts, List.take_append, List.take_of_length_le (by simpa), leBytes_length,
    decode_of_opcode (hdrOpcode_header i), decodeBody_incomplete]
  obtain hops | hops := Nat.lt_or_ge (k - 4) (8 * i.op.nops)
  · left
    simp only [List.length_take]
    omega
  · right
    have hoperands := i.operandBytes_length
    rw [List.take_append, List.take_of_length_le (by omega), Instr.dlen_eq hw, List.drop_left' hoperands,
      List.length_take]
    omega

end Sys2Proof
end

section
/-! PROOFS. The encoding statements (spec/30_encoding.md), the response stream: its bytes tell the responses apart
(R44, R45). -/

namespace Sys2Proof

/-- R29: a number that fits in `n` bytes is told by them. -/
theorem leBytes_inj {n v w : Nat} (hv : v < 256 ^ n) (hw : w < 256 ^ n) (h : leBytes n v = leBytes n w) : v = w := by
  have hmod := congrArg leNat h
  rwa [leNat_leBytes, leNat_leBytes, Nat.mod_eq_of_lt hv, Nat.mod_eq_of_lt hw] at hmod

/-- R45: a word sent in as many bytes as it has is told by them. -/
theorem leBytes_toNat_inj {n : Nat} {x y : BitVec (8 * n)} (h : leBytes n x.toNat = leBytes n y.toNat) : x = y := by
  have hpow : 256 ^ n = 2 ^ (8 * n) := by rw [pow_mul]; rfl
  exact BitVec.eq_of_toNat_eq (leBytes_inj (hpow ▸ x.isLt) (hpow ▸ y.isLt) h)

namespace Machine

/-- R45: the fields of fixed size come first and give the length of `OUT`, so the first response on the stream and what
follows it are told by the bytes. -/
theorem Response.toBytes_append_inj {r q : Response} {xs ys : List Byte} (hr : r.out.length < 2 ^ 64)
    (hq : q.out.length < 2 ^ 64) (h : r.toBytes ++ xs = q.toBytes ++ ys) : r = q ∧ xs = ys := by
  simp only [Response.toBytes, List.append_assoc] at h
  obtain ⟨hstatus, h⟩ := List.append_inj h (by simp)
  obtain ⟨hresult, h⟩ := List.append_inj h (by simp)
  obtain ⟨hlength, h⟩ := List.append_inj h (by simp)
  obtain ⟨hout, hrest⟩ := List.append_inj h (leBytes_inj (by omega) (by omega) hlength)
  have hst : r.status = q.status := leBytes_toNat_inj (n := 4) hstatus
  have hres : r.result = q.result := leBytes_toNat_inj (n := 8) hresult
  cases r
  cases q
  simp_all

theorem Response.toBytes_ne_nil (r : Response) : r.toBytes ≠ [] := by
  simp [Response.toBytes, leBytes]

/-- R45: two lists of responses with the same bytes are the same list, by induction on the first. -/
theorem flatMap_toBytes_inj {rs qs : List Response} (hrs : ∀ r ∈ rs, r.out.length < 2 ^ 64)
    (hqs : ∀ q ∈ qs, q.out.length < 2 ^ 64) (h : rs.flatMap Response.toBytes = qs.flatMap Response.toBytes) :
    rs = qs := by
  induction rs generalizing qs with
  | nil =>
    cases qs with
    | nil => rfl
    | cons q qs => simp [Response.toBytes_ne_nil] at h
  | cons r rs ih =>
    cases qs with
    | nil => simp [Response.toBytes_ne_nil] at h
    | cons q qs =>
      obtain ⟨hr, hrs'⟩ := List.forall_mem_cons.1 hrs
      obtain ⟨hq, hqs'⟩ := List.forall_mem_cons.1 hqs
      rw [List.flatMap_cons, List.flatMap_cons] at h
      obtain ⟨rfl, hrest⟩ := Response.toBytes_append_inj hr hq h
      rw [ih hrs' hqs' hrest]

/-- Settles O5: the form of a response is its definition, and the responses are read off the stream one by one. -/
theorem responseStreamIsUniquelyReadable : Obligations.ResponseStreamIsUniquelyReadable :=
  ⟨fun _ => rfl, fun _ _ => flatMap_toBytes_inj⟩

end Machine
end Sys2Proof
end

section
/-! PROOFS. The encoding statements (spec/30_encoding.md), the step: it runs the command that stands on the stream, waits
for one that is not all there (R45), and raises IllegalCommand on one that is no legal encoding (R50, R51). -/

namespace Sys2Proof.Machine

/-- Settles O6, by what the decoder finds and by the encoding. -/
theorem stepRunsTheDecodedCommand : Obligations.StepRunsTheDecodedCommand := by
  refine ⟨fun s i n hd => ?_, fun s i rest => step_encode⟩
  exact ⟨wf_of_decode hd, length_encode_of_decode hd, step_instr_uncut hd⟩

/-- Settles O9: what has come of the command decodes to nothing, and no reset follows it. -/
theorem partialCommandWaits : Obligations.PartialCommandWaits := by
  intro s i k hw hk hs
  apply step_wait
  · rw [hs, leadingBytes_bytes, decode_take_encode hw hk]
  · rw [hs, afterReset_bytes]

/-- R50, R51: bytes that are no legal encoding, at the head of the stream, are taken and leave the error's word, if the
host's next act is no reset in them. -/
theorem step_of_decode_illegal {s : State} {bs : List Byte} {rest : List HostInput} {e : Illegal}
    (hd : decode (bs ++ leadingBytes rest) = .illegal e bs.length) (hs : s.inputs = bs.map .byte ++ rest)
    (hr : rest.head? ≠ some .resetInCommand) :
    step s = .next (State.afterError { s with inputs := rest } (illegalErr e).status 0) := by
  have hrest := s.drop_append bs rest hs
  rw [step_illegal_uncut (by rwa [hs, leadingBytes_append]) (by rwa [hrest]), s.consume_append bs rest hs]
  rfl

/-- R50: the ranges of undefined opcodes hold no opcode of R47. -/
theorem ofCode_eq_none_of_range {c : Byte}
    (hc : c.toNat ≤ 0x0F ∨ 0x17 ≤ c.toNat ∧ c.toNat ≤ 0x1F ∨ 0x24 ≤ c.toNat ∧ c.toNat ≤ 0x2F ∨
      0x35 ≤ c.toNat ∧ c.toNat ≤ 0x3F ∨ 0x44 ≤ c.toNat ∧ c.toNat ≤ 0x4F ∨ 0x52 ≤ c.toNat) : Op.ofCode c = none := by
  refine Op.ofCode_none.2 fun o ho => ?_
  subst ho
  revert hc
  cases o <;> decide

/-- Settles O7: no row has the opcode, so the decoder takes the header alone. -/
theorem undefinedOpcodeRaises : Obligations.UndefinedOpcodeRaises := by
  intro s h0 h1 h2 h3 rest hs hr hc
  have hd : decode ([h0, h1, h2, h3] ++ leadingBytes rest) = .illegal .undefinedOpcode 4 := by
    rw [← leBytes_headerWord, decode_of_undefined]
    rw [headerWord_eq, hdrOpcode_append, ofCode_eq_none_of_range hc]
  exact step_of_decode_illegal hd hs hr

/-! IllegalCommand contexts 2 and 3. -/

/-- R51: the bytes of a well-formed command under an illegal header of its opcode are IllegalCommand context 2, and the
whole length of the command. -/
theorem decode_reservedBits_encode {i : Instr} {h : HWord} (hw : i.wf = true) (ho : hdrOpcode h = i.op.code)
    (hok : ¬ hdrOk i.op h = true) (r : List Byte) :
    decode (leBytes 4 h.toNat ++ (encode i).drop 4 ++ r) = .illegal .reservedBits (encode i).length := by
  have hbody : (encode i).drop 4 = i.operandBytes ++ i.data := by rw [encode_parts, List.drop_left' (by simp)]
  rw [hbody, List.append_assoc, List.append_assoc, decode_of_opcode ho, decodeBody_operands_data hw, if_neg hok]

/-- R51: a header whose reserved field is not 0, or whose `v` is not 0 in a row where it is no operand. -/
theorem not_hdrOk {o : Op} {h : HWord}
    (hh : hdrReserved h ≠ 0 ∨ hdrV h ≠ 0 ∧ o ≠ .baWrite ∧ o ≠ .pbLsbwr) : ¬ hdrOk o h = true := by
  rw [hdrOk_iff, ← Bool.not_eq_true, Op.usesV_iff]
  tauto

/-- R87, R88: `CODE` 7 is IllegalCommand. -/
theorem Err.statusCode_eq_seven {e : Err} : (statusCode e.status).toNat = 7 ↔ e.kind = .illegalCommand := by
  cases e <;> decide

/-- R51: the commands whose operands raise IllegalCommand. -/
theorem errorOf_operandRange {i : Instr} {s : State} {e : Err} {r : Nat} (h : errorOf i s = some (e, r))
    (he : e.kind = .illegalCommand) :
    (∃ a, i = .pkLe32 a ∧ 2 ^ 32 ≤ a.toNat) ∨ (∃ a d, i = .frBuild a d ∧ 2 ^ 32 ≤ a.toNat) ∨
      (∃ a, i = .cmMap a ∧ 2 ^ 48 ≤ a.toNat) := by
  cases i <;> simp only [errorOf] at h
  case pkLe32 a =>
    split_ifs at h with ha
    exact .inl ⟨a, rfl, ha⟩
  case frBuild a d =>
    split_ifs at h with ha
    · exact .inr (.inl ⟨a, d, rfl, ha⟩)
    · cases h
      cases he
  case cmMap a =>
    split_ifs at h with ha
    exact .inr (.inr ⟨a, rfl, ha⟩)
  case cdDecode =>
    generalize s.pb.gather 0 32 = n at h
    split_ifs at h <;> cases h <;> cases he
  case baInit | baRead | baWrite | pkConcat | pbLoad | pbLsbrd | pbLsbwr | cdEncode =>
    split_ifs at h <;> cases h <;> cases he
  all_goals cases h

/-- Settles O8: (a) by the decoder, (b) by the first check of each of the three meanings, (c) by what a command can
answer. -/
theorem illegalHeadersAndOperandsRaise : Obligations.IllegalHeadersAndOperandsRaise := by
  refine ⟨fun s i hw rest hwf ho hh hs hr => ?header, fun s a ha => if_pos ha, fun s a d hd ha => ?frBuild,
    fun s a ha => if_pos ha, fun i s t h ht => ?other⟩
  case header =>
    have hlen : (leBytes 4 hw.toNat ++ (encode i).drop 4).length = (encode i).length := by
      rw [encode_parts]
      simp
    refine step_of_decode_illegal (e := .reservedBits) ?_ hs hr
    rw [hlen]
    exact decode_reservedBits_encode hwf ho (not_hdrOk hh) _
  case frBuild => exact (needData_of_eq hd).trans (if_pos ha)
  case other =>
    obtain ⟨e, r, he, rfl⟩ | ⟨-, rfl⟩ := exec_cases h
    · exact errorOf_operandRange he (Err.statusCode_eq_seven.1 ht)
    · cases ht

end Sys2Proof.Machine
end

section
/-! PROOFS. The encoding statements (spec/30_encoding.md), what the meanings answer: where they stop (R42), and the one
response of each command (R44). -/

namespace Sys2Proof.Machine

/-! Where the meanings stop. -/

section refused
variable {n : Nat} {s : State} {q : Refusal} {k : Result}

@[simp] theorem done_ne_refused (out : List Byte) : done n out s ≠ .refused q := by simp [done]

@[simp] theorem raise_ne_refused (e : Err) : raise e n s ≠ .refused q := by simp [raise]

@[simp] theorem guardFb_refused : guardFb n s k = .refused q ↔ n ≤ s.params.fbMaxBytes ∧ k = .refused q := by
  unfold guardFb
  split_ifs with h <;> simp [h]

@[simp] theorem guardPb_refused : guardPb n s k = .refused q ↔ n ≤ s.params.pbMaxBytes ∧ k = .refused q := by
  unfold guardPb
  split_ifs with h <;> simp [h]

/-- R42: a meaning whose further checks do not refuse is refused for the number of its data bytes alone. -/
theorem needData_refused {d : List Byte} (hk : k ≠ .refused q) :
    needData n d k = .refused q ↔ d.length ≠ n ∧ q = .malformed := by
  by_cases h : d.length = n <;> simp [needData, h, hk, eq_comm]

end refused

/-- R42: the meanings refuse exactly the terms that are not well-formed, whatever the state, and say so: past the
count of the data bytes, every branch of a meaning ends in `done`, in `raise` or in a guard's fault. -/
theorem exec_refused_iff {i : Instr} {s : State} {q : Refusal} :
    exec i s = .refused q ↔ i.wf = false ∧ q = .malformed := by
  cases i <;>
    simp [exec, execBaInit, execBaLen, execBaRead, execBaWrite, execBaIterStart, execBaIterNext, execBaDump,
      execPkLe32, execPkFromle32, execPkConcat, execFrBuild, execCmMap, execPbLoad, execPbDump, execPbLsbrd,
      execPbLsbwr, execCvMaxtotal, execCvMaxpay, execCvImgok, execCvPayok, execCdEncode, execCdDecode, Instr.wf,
      carrierLen, needData_refused, ite_eq_iff']

/-- R26, R32: no command faults in a state that meets the invariant: a well-formed one answers, another is refused. -/
theorem State.Inv.exec_ne_fault {i : Instr} {s : State} (hs : s.Inv) (f : Fault) : Machine.exec i s ≠ .fault f := by
  intro h
  cases hw : i.wf with
  | false => cases (exec_refused_iff.2 ⟨hw, rfl⟩).symm.trans h
  | true =>
    obtain ⟨t, ht⟩ := exec_total hs hw
    cases ht.symm.trans h

/-- Settles O14: only the check of the data bytes refuses, and the invariant gives every access its room. -/
theorem meaningsStopOnlyOutsideTheSpec : Obligations.MeaningsStopOnlyOutsideTheSpec :=
  ⟨fun _ _ hw => exec_refused_iff.2 ⟨hw, rfl⟩, fun _ _ _ h => (exec_refused_iff.1 h).1,
    fun _ _ f h hs => hs.exec_ne_fault f h⟩

/-! The response of a command. -/

/-- R44: only three commands send bytes in `OUT`. -/
theorem output_eq_nil {i : Instr} (s : State) (h : i.op ∉ [Op.baDump, .pkLe32, .pbDump]) : output i s = [] := by
  cases i <;> simp [Instr.op] at h <;> rfl

/-- Settles O21: an error responds with `OUT` empty, a success with the command's output; a command that is no legal
encoding raises its error. -/
theorem everyCommandSendsOneResponse : Obligations.EveryCommandSendsOneResponse := by
  refine ⟨fun i s t h => ?legal, fun s e n hd hr => ?illegal⟩
  case legal =>
    obtain ⟨e, r, -, rfl⟩ | ⟨-, rfl⟩ := exec_cases h
    · exact ⟨[], rfl, fun _ => rfl, fun _ => rfl⟩
    · refine ⟨output i s, ?_, output_eq_nil s, fun h0 => absurd rfl h0⟩
      rw [State.respond_sent, effect_sent]
      rfl
  case illegal => exact ⟨_, step_illegal_uncut hd hr, (illegalErr e).status_ne_zero, rfl⟩

end Sys2Proof.Machine
end

section
/-! PROOFS. The BitArray statements (spec/41_bitarray.md), what each command does in one state (R54 to R60). -/

namespace Sys2Proof.Machine

/-! What an answered command leaves. -/

/-- R9, R44: a result that fits in `RESULT` stands there, and is sent. -/
theorem State.answered_respond {s t : State} {r : Nat} {out : List Byte} (hsent : t.sent = s.sent) (hr : r < 2 ^ 64) :
    s.Answered (t.respond 0 (BitVec.ofNat 64 r) out) 0 r out where
  status := rfl
  result := (BitVec.toNat_ofNat r 64).trans (Nat.mod_eq_of_lt hr)
  sent := congrArg (· ++ _) hsent

theorem State.sameButResponse_respond (s : State) (st : HWord) (r : Word) (out : List Byte) :
    s.SameButResponse (s.respond st r out) :=
  ⟨rfl, rfl, rfl, rfl, rfl, rfl, fun _ => rfl, fun _ => rfl⟩

/-- The bit at an index as R9 `Bit` gives it, a number. -/
theorem Memory.toNat_bit (m : Memory) (i : Nat) : (m.bit i).toNat = ((m.read (i / 8)).toNat >>> (i % 8)) &&& 1 := by
  rw [Memory.bit, byteBit, BitVec.getLsbD, Nat.toNat_testBit, Nat.and_one_is_mod, Nat.shiftRight_eq_div_pow]

theorem Memory.toNat_bit_lt (m : Memory) (i : Nat) : (m.bit i).toNat < 2 ^ 64 := (m.bit i).toNat_lt.trans (by decide)

/-- R19, P3 of R6: the number of bits of the BitArray fits in a register. -/
theorem State.Inv.bitLen_lt {s : State} (hs : s.Inv) : 8 * s.fbLen.toNat < 2 ^ 64 := by
  have hp3 := hs.paramsOk.2.2
  have hfb := hs.fbLenLe
  omega

/-- R20: while bits are left, the cursor goes up by one and does not wrap. -/
theorem State.Inv.toNat_iter_succ {s : State} (hs : s.Inv) (h : s.iter.toNat < 8 * s.fbLen.toNat) :
    (s.iter + 1).toNat = s.iter.toNat + 1 := by
  have hlen := hs.bitLen_lt
  rw [BitVec.toNat_add, show (1 : Word).toNat = 1 from rfl, Nat.mod_eq_of_lt (by omega)]

/-! An index in range. -/

/-- R49: an index that is not negative is the operand itself. -/
theorem toNat_bitIndex {a : Word} (h : 0 ≤ a.toInt) : (bitIndex a).toNat = a.toNat := by
  rw [BitVec.toInt_eq_toNat_cond] at h
  rw [bitIndex, BitVec.toInt_eq_toNat_cond]
  split_ifs at h ⊢ <;> omega

section inRange
variable {s : State} (hs : s.Inv) {a : Word} (h0 : 0 ≤ a.toInt) (h8 : a.toInt < 8 * s.fbLen.toNat)
include hs h0 h8

/-- R32: the byte of a bit in range is there. -/
theorem State.Inv.byte_of_bitIndex : (bitIndex a).toNat / 8 + 1 ≤ s.params.fbMaxBytes := by
  have hfb := hs.fbLenLe
  rw [bitIndex]
  omega

theorem State.Inv.exec_baRead : Machine.exec (.baRead a) s = done (s.fb.bit a.toNat).toNat [] s := by
  rw [exec_of_admitted (i := .baRead a) ⟨h0, h8, hs.byte_of_bitIndex h0 h8⟩, answer, toNat_bitIndex h0]
  rfl

theorem State.Inv.exec_baWrite (v : Byte) :
    Machine.exec (.baWrite v a) s = done 0 [] { s with fb := s.fb.setBit a.toNat (writeBit v) } := by
  rw [exec_of_admitted (i := .baWrite v a) ⟨h0, h8, hs.byte_of_bitIndex h0 h8⟩, Machine.effect, toNat_bitIndex h0]
  rfl

end inRange

/-! One command. -/

/-- Settles O24: the data bytes are written below `L`, so nothing at `L` or beyond changes. -/
theorem baInitBuildsTheBitArray : Obligations.BaInitBuildsTheBitArray := by
  intro a d s hd
  refine ⟨encode_eq _, fun hbig => (needData_of_eq hd).trans (if_pos hbig), fun hs hle => ?_⟩
  refine ⟨_, exec_of_admitted (i := .baInit a d) ⟨hd, hle⟩, State.answered_respond rfl a.isLt, hs.toNat_ofNat hle, rfl,
    fun k hk => ?below, fun k hk => ?beyond, rfl, rfl, rfl, rfl, fun _ => rfl⟩
  case below =>
    have hread := Memory.read_writeBytes_in hs.fbWf 0 d k hk
    rwa [Nat.zero_add] at hread
  case beyond => exact Memory.read_writeBytes_out hs.fbWf 0 d k (.inr (by omega))

/-- Settles O25: the bit length fits in `RESULT`. -/
theorem baLenReturnsTheBitLength : Obligations.BaLenReturnsTheBitLength :=
  ⟨encode_eq _, fun s hs => ⟨_, rfl, State.answered_respond rfl hs.bitLen_lt, s.sameButResponse_respond ..⟩⟩

/-- Settles O26: the two checks of the index in their order, then the bit. -/
theorem baReadReturnsOneBit : Obligations.BaReadReturnsOneBit := by
  intro a s
  refine ⟨encode_eq _, fun hneg => if_pos hneg, fun h0 hend => (if_neg h0.not_gt).trans (if_pos hend),
    fun hs h0 h8 => ?_⟩
  rw [← Memory.toNat_bit]
  exact ⟨_, hs.exec_baRead h0 h8, State.answered_respond rfl (Memory.toNat_bit_lt ..), s.sameButResponse_respond ..⟩

/-- Settles O27: the two checks of the index in their order, then one bit of one byte. -/
theorem baWriteSetsOneBit : Obligations.BaWriteSetsOneBit := by
  intro v a s
  refine ⟨encode_eq _, fun hneg => if_pos hneg, fun h0 hend => (if_neg h0.not_gt).trans (if_pos hend),
    fun hs h0 h8 => ?_⟩
  have hread := Memory.read_setBit hs.fbWf a.toNat (writeBit v)
  refine ⟨_, hs.exec_baWrite h0 h8 v, State.answered_respond rfl (by decide), ?bit, fun k hk => ?bits,
    fun j hj => ?bytes, rfl, rfl, rfl, rfl, rfl, rfl, fun _ => rfl⟩
  case bit => exact Memory.bit_setBit_same hs.fbWf a.toNat (writeBit v)
  case bits =>
    rw [State.respond_fb, hread, if_pos rfl]
    exact byteBit_setByteBit_other _ _ _ _ hk
  case bytes => exact (hread j).trans (if_neg hj)

/-- Settles O28: no check stands before the effect. -/
theorem baIterStartRewinds : Obligations.BaIterStartRewinds :=
  ⟨encode_eq _, fun _ => ⟨_, rfl, State.answered_respond rfl (by decide), rfl, rfl, rfl, rfl, rfl, rfl, fun _ => rfl,
    fun _ => rfl⟩⟩

theorem exec_baIterNext_of_le {s : State} (h : 8 * s.fbLen.toNat ≤ s.iter.toNat) : exec .baIterNext s = done 2 [] s :=
  if_neg h.not_gt

theorem State.Inv.exec_baIterNext {s : State} (hs : s.Inv) (h : s.iter.toNat < 8 * s.fbLen.toNat) :
    Machine.exec .baIterNext s = done (s.fb.bit s.iter.toNat).toNat [] { s with iter := s.iter + 1 } := by
  have hfb := hs.fbLenLe
  exact (if_pos h).trans (guardFb_of_le (by omega))

/-- Settles O29: bits are left, or the cursor is at the end. -/
theorem baIterNextProducesTheNextBit : Obligations.BaIterNextProducesTheNextBit := by
  refine ⟨encode_eq _, fun s => ⟨fun hend => ?_, fun hs h => ?_⟩⟩
  · exact ⟨_, exec_baIterNext_of_le hend, State.answered_respond rfl (by decide), s.sameButResponse_respond ..⟩
  · rw [← Memory.toNat_bit]
    exact ⟨_, hs.exec_baIterNext h, State.answered_respond rfl (Memory.toNat_bit_lt ..), hs.toNat_iter_succ h, rfl,
      rfl, rfl, rfl, rfl, fun _ => rfl, fun _ => rfl⟩

/-- Settles O30: the bytes sent are read from address 0 on. -/
theorem baDumpSendsTheBuffer : Obligations.BaDumpSendsTheBuffer := by
  refine ⟨encode_eq _, fun s hs => ⟨_, s.fb.readBytes 0 s.fbLen.toNat, exec_of_admitted (i := .baDump) hs.fbLenLe,
    State.answered_respond rfl s.fbLen.isLt, Memory.readBytes_length .., fun k hk => ?_, s.sameButResponse_respond ..⟩⟩
  rw [Memory.readBytes_getElem, Nat.zero_add]

end Sys2Proof.Machine
end

section
/-! PROOFS. The BitArray statements (spec/41_bitarray.md), the laws of R61: a bit read after a bit written, and the
sequence of an iteration. -/

namespace Sys2Proof.Machine

/-! A bit read after a bit written. -/

/-- R49: the bit that BA_WRITE writes, as the word BA_READ returns. -/
theorem ofNat_toNat_writeBit (v : Byte) : BitVec.ofNat 64 (writeBit v).toNat = v.setWidth 64 &&& 1 := by
  have hbit : (writeBit v).toNat = v.toNat % 2 := by
    rw [writeBit, byteBit, BitVec.getLsbD, Nat.toNat_testBit, pow_zero, Nat.div_one]
  apply BitVec.eq_of_toNat_eq
  rw [hbit, BitVec.toNat_and, BitVec.toNat_ofNat, BitVec.toNat_setWidth, show (1 : Word).toNat = 1 from rfl,
    Nat.and_one_is_mod]
  omega

/-- Settles O49: the write changes no bit but the one at its index, and the length of the BitArray stays. -/
theorem bitReadAfterBitWrite : Obligations.BitReadAfterBitWrite := by
  intro v a a' s t hs h0 h8 ht
  have hinv : t.Inv := hs.exec ht
  obtain rfl := done_next.1 ((hs.exec_baWrite h0 h8 v).symm.trans ht)
  refine ⟨⟨_, hinv.exec_baRead h0 h8, ?same⟩, fun h0' h8' hne =>
    ⟨_, _, hinv.exec_baRead h0' h8', hs.exec_baRead h0' h8', ?other⟩⟩
  case same =>
    rw [State.respond_result, State.respond_fb, Memory.bit_setBit_same hs.fbWf, ofNat_toNat_writeBit]
  case other =>
    have hindex : a'.toNat ≠ a.toNat := fun h => hne (BitVec.eq_of_toNat_eq h)
    rw [State.respond_result, State.respond_fb, Memory.bit_setBit_other hs.fbWf _ _ _ hindex, State.respond_result]

/-! Commands that read the BitArray out. -/

/-- The response of a command that succeeds with this number and sends no bytes (R44). -/
def Response.success (r : Nat) : Response := { status := 0, result := BitVec.ofNat 64 r, out := [] }

/-- The commands ran from `s` to `t` and sent these responses; the BitArray, but for its cursor, is as before. -/
structure State.ReadsOut (s : State) (is : List Instr) (rs : List Response) (t : State) : Prop where
  run : execAll is s = .next t
  sent : t.sent = s.sent ++ rs
  fb : t.fb = s.fb
  fbLen : t.fbLen = s.fbLen

theorem execAll_singleton {i : Instr} {s t : State} (h : exec i s = .next t) : execAll [i] s = .next t := by
  simp only [execAll, h]

/-- R24: a list of commands keeps the invariant. -/
theorem State.Inv.execAll {is : List Instr} {s t : State} (hs : s.Inv) (h : execAll is s = .next t) : t.Inv := by
  induction is generalizing s with
  | nil =>
    cases h
    exact hs
  | cons i is ih =>
    simp only [Machine.execAll] at h
    cases he : Machine.exec i s <;> simp only [he] at h
    case next u => exact ih (hs.exec he) h
    all_goals cases h

theorem State.ReadsOut.append {s t u : State} {is js : List Instr} {rs qs : List Response}
    (h : s.ReadsOut is rs t) (h' : t.ReadsOut js qs u) : s.ReadsOut (is ++ js) (rs ++ qs) u where
  run := by rw [execAll_append, h.run]; exact h'.run
  sent := by rw [h'.sent, h.sent, List.append_assoc]
  fb := h'.fb.trans h.fb
  fbLen := h'.fbLen.trans h.fbLen

/-! Iteration. -/

/-- R58: BA_ITER_START returns 0. -/
theorem readsOut_baIterStart (s : State) :
    ∃ t, s.ReadsOut [.baIterStart] [.success 0] t ∧ t.iter = 0 :=
  ⟨_, ⟨execAll_singleton rfl, rfl, rfl, rfl⟩, rfl⟩

/-- R59: while bits are left, BA_ITER_NEXT returns the one under the cursor. -/
theorem State.Inv.readsOut_baIterNext {s : State} (hs : s.Inv) (h : s.iter.toNat < 8 * s.fbLen.toNat) :
    ∃ t, s.ReadsOut [.baIterNext] [.success (s.fb.bit s.iter.toNat).toNat] t ∧ t.iter.toNat = s.iter.toNat + 1 :=
  ⟨_, ⟨execAll_singleton (hs.exec_baIterNext h), rfl, rfl, rfl⟩, hs.toNat_iter_succ h⟩

/-- R59: at the end of the bits, BA_ITER_NEXT returns the end marker. -/
theorem readsOut_baIterNext_of_le {s : State} (h : 8 * s.fbLen.toNat ≤ s.iter.toNat) :
    ∃ t, s.ReadsOut [.baIterNext] [.success 2] t :=
  ⟨_, ⟨execAll_singleton (exec_baIterNext_of_le h), rfl, rfl, rfl⟩⟩

/-- R59: `n` BA_ITER_NEXT with at least `n` bits left return the next `n` in ascending order, by induction on `n`. -/
theorem State.Inv.readsOut_replicate_baIterNext {s : State} (hs : s.Inv) {n : Nat}
    (h : s.iter.toNat + n ≤ 8 * s.fbLen.toNat) :
    ∃ t, s.ReadsOut (List.replicate n .baIterNext)
        ((List.range' s.iter.toNat n).map fun b => .success (s.fb.bit b).toNat) t ∧
      t.iter.toNat = s.iter.toNat + n := by
  induction n generalizing s with
  | zero => exact ⟨s, ⟨rfl, (List.append_nil _).symm, rfl, rfl⟩, rfl⟩
  | succ n ih =>
    obtain ⟨t, hfirst, hiter⟩ := hs.readsOut_baIterNext (by omega)
    have ht : t.Inv := hs.execAll hfirst.run
    obtain ⟨u, hrest, hend⟩ := ih ht (by rw [hiter, hfirst.fbLen]; omega)
    rw [hiter, hfirst.fb] at hrest
    exact ⟨u, hfirst.append hrest, by omega⟩

/-- The commands of one whole iteration (R61 L3). -/
def State.iteration (s : State) : List Instr :=
  .baIterStart :: List.replicate (8 * s.fbLen.toNat + 1) .baIterNext

/-- The responses of one whole iteration (R61 L3): 0, the bits in ascending order, and the end marker 2. -/
def State.iterationResponses (s : State) : List Response :=
  .success 0 :: ((List.range (8 * s.fbLen.toNat)).map fun b => .success (s.fb.bit b).toNat) ++ [.success 2]

/-- R61 L3: BA_ITER_START, then every bit, then the end marker. -/
theorem State.Inv.readsOut_iteration {s : State} (hs : s.Inv) :
    ∃ t, s.ReadsOut s.iteration s.iterationResponses t := by
  obtain ⟨t, hstart, hzero⟩ := readsOut_baIterStart s
  have hiter : t.iter.toNat = 0 := by rw [hzero]; rfl
  have ht : t.Inv := hs.execAll hstart.run
  obtain ⟨u, hbits, hend⟩ := ht.readsOut_replicate_baIterNext (n := 8 * t.fbLen.toNat) (by omega)
  obtain ⟨v, hmarker⟩ := readsOut_baIterNext_of_le (s := u) (by rw [hbits.fbLen]; omega)
  have hall := hstart.append (hbits.append hmarker)
  rw [hiter, ← List.range_eq_range', hstart.fb, hstart.fbLen, ← List.replicate_succ'] at hall
  exact ⟨v, hall⟩

/-- R49: an index below 2^63 is its own operand. -/
theorem toInt_ofNat_of_lt {b : Nat} (h : b < 2 ^ 63) : (BitVec.ofNat 64 b).toInt = b := by
  rw [BitVec.toInt_eq_toNat_cond, BitVec.toNat_ofNat, Nat.mod_eq_of_lt (by omega), if_pos (by omega)]

/-- Settles O50: an iteration leaves the BitArray as it was, so the next one reads the same bits. -/
theorem iterationReturnsTheBitsInOrder : Obligations.IterationReturnsTheBitsInOrder := by
  intro s hs is rs
  obtain ⟨t, hfirst⟩ := hs.readsOut_iteration
  obtain ⟨u, hsecond⟩ := (hs.execAll hfirst.run).readsOut_iteration
  refine ⟨fun b hb hsmall => ?read, ⟨t, hfirst.run, hfirst.sent, fun k => by rw [hfirst.fb]⟩, u, ?twice⟩
  case read =>
    have hint := toInt_ofNat_of_lt hsmall
    refine ⟨_, hs.exec_baRead (by omega) (by omega), ?_⟩
    rw [State.respond_result, BitVec.toNat_ofNat, Nat.mod_eq_of_lt (by omega)]
  case twice =>
    rw [State.iteration, State.iterationResponses, hfirst.fb, hfirst.fbLen] at hsecond
    have htwice := hfirst.append hsecond
    exact ⟨htwice.run, htwice.sent.trans (List.append_assoc ..).symm⟩

end Sys2Proof.Machine
end

section
/-! PROOFS. The packing statements (spec/42_packing.md): the little-endian bytes of a uint32 (R63, R64), the data bytes
appended to the BitArray (R65). -/

namespace Sys2Proof

/-! Four little-endian bytes. -/

/-- R63: the 4 bytes of a uint32, written out. -/
theorem leBytes_four (v : Nat) :
    leBytes 4 v =
      [BitVec.ofNat 8 v, BitVec.ofNat 8 (v >>> 8), BitVec.ofNat 8 (v >>> 16), BitVec.ofNat 8 (v >>> 24)] := by
  simp only [leBytes, Nat.shiftRight_eq_div_pow, Nat.div_div_eq_div_mul, Nat.reduceMul, Nat.reducePow]

/-- R9 `MemRead`: the first byte fills the 8 bits that the shift leaves free. -/
theorem leNat_cons (x : Byte) (xs : List Byte) : leNat (x :: xs) = x.toNat ||| leNat xs <<< 8 := by
  rw [leNat, Nat.or_comm, ← Nat.shiftLeft_add_eq_or_of_lt x.isLt, Nat.shiftLeft_eq]
  omega

/-- R64: the uint32 that 4 bytes give, written out. -/
theorem leNat_four (d0 d1 d2 d3 : Byte) :
    leNat [d0, d1, d2, d3] = d0.toNat ||| d1.toNat <<< 8 ||| d2.toNat <<< 16 ||| d3.toNat <<< 24 := by
  simp only [leNat_cons, show leNat [] = 0 from rfl, Nat.zero_shiftLeft, Nat.or_zero, Nat.shiftLeft_or_distrib,
    ← Nat.shiftLeft_add, Nat.or_assoc, Nat.reduceAdd]

/-- R64: a uint32 is read back from its bytes. -/
theorem ofNat_leNat_leBytes {a : Word} (ha : a.toNat < 256 ^ 4) : BitVec.ofNat 64 (leNat (leBytes 4 a.toNat)) = a := by
  rw [leNat_leBytes, Nat.mod_eq_of_lt ha, BitVec.ofNat_toNat, BitVec.setWidth_eq]

namespace Machine

/-! One command. -/

/-- Settles O31: the range check, then the bytes. -/
theorem pkLe32GivesLittleEndianBytes : Obligations.PkLe32GivesLittleEndianBytes := by
  intro a s
  refine ⟨encode_eq _, fun hbig => if_pos hbig, fun ha => ?_⟩
  rw [← leBytes_four]
  exact ⟨_, exec_of_admitted (i := .pkLe32 a) ha, State.answered_respond rfl (show 4 < 2 ^ 64 by decide),
    s.sameButResponse_respond ..⟩

/-- R63: PK_LE32 that sent a response of success sent the 4 bytes of its operand, a uint32. -/
theorem pkLe32_sent {a : Word} {s t : State} {r : Word} {bs : List Byte} (h : exec (.pkLe32 a) s = .next t)
    (hsent : t.sent = s.sent ++ [{ status := 0, result := r, out := bs }]) :
    a.toNat < 2 ^ 32 ∧ bs = leBytes 4 a.toNat := by
  obtain ⟨e, _, -, rfl⟩ | ⟨ha, rfl⟩ := exec_cases h <;>
    simp only [State.respond_sent, effect_sent, List.append_cancel_left_eq, List.cons.injEq, Response.mk.injEq] at hsent
  · exact absurd hsent.1.1 e.status_ne_zero
  · exact ⟨ha, hsent.1.2.2.symm⟩

/-- Settles O32: the bytes that PK_LE32 sends are read back by `leNat`. -/
theorem pkFromle32ReadsLittleEndian : Obligations.PkFromle32ReadsLittleEndian := by
  refine ⟨fun d0 d1 d2 d3 s => ⟨encode_eq _, ?_⟩, fun a s t u b0 b1 b2 b3 ht hsent hu => ?back⟩
  · have hlt : leNat [d0, d1, d2, d3] < 256 ^ 4 := leNat_lt [d0, d1, d2, d3]
    have hans : s.Answered _ 0 (leNat [d0, d1, d2, d3]) [] := State.answered_respond (t := s) rfl (by omega)
    rw [← leNat_four]
    exact ⟨_, rfl, hans, hans.result.trans_lt hlt, s.sameButResponse_respond ..⟩
  case back =>
    obtain ⟨ha, hbytes⟩ := pkLe32_sent ht hsent
    obtain rfl := done_next.1 hu
    rw [State.respond_result, hbytes, ofNat_leNat_leBytes ha]

/-- Settles O33: the data bytes are written from `FB_LEN` on, so nothing below it or beyond the new end changes. -/
theorem pkConcatAppends : Obligations.PkConcatAppends := by
  intro a d s hd
  refine ⟨encode_eq _, fun hbig => (needData_of_eq hd).trans (if_pos hbig), fun hs hle => ?_⟩
  have hlen := hs.toNat_ofNat hle
  exact ⟨_, exec_of_admitted (i := .pkConcat a d) ⟨hd, hle⟩,
    State.answered_respond rfl (hlen.symm.trans_lt (BitVec.isLt _)), hlen, rfl,
    fun k hk => Memory.read_writeBytes_in hs.fbWf _ d k hk, fun k hk => Memory.read_writeBytes_out hs.fbWf _ d k hk,
    rfl, rfl, rfl, rfl, fun _ => rfl⟩

end Machine
end Sys2Proof
end

section
/-! PROOFS. The packing statements (spec/42_packing.md), the frame: what FR_BUILD builds (R66), and the bits that
iteration produces from it (R67). -/

namespace Sys2Proof.Machine

/-! The frame in a memory. -/

/-- Byte sequences one after the other are written as one. -/
theorem Memory.writeBytes_append (m : Memory) (k : Nat) (xs ys : List Byte) :
    m.writeBytes k (xs ++ ys) = (m.writeBytes k xs).writeBytes (k + xs.length) ys := by
  induction xs generalizing m k with
  | nil => rfl
  | cons x xs ih =>
    rw [List.cons_append, Memory.writeBytes, ih, Memory.writeBytes, List.length_cons, Nat.add_right_comm, Nat.add_assoc]

/-- R62: a frame is its header and then, from byte 4 on, its payload. -/
theorem Memory.writeBytes_frame (m : Memory) (n : Nat) (d : List Byte) :
    m.writeBytes 0 (frame n d) = (m.writeBytes 0 (leBytes 4 n)).writeBytes 4 d := by
  rw [frame, Memory.writeBytes_append, leBytes_length]

section reads
variable {m : Memory} (hm : m.wf = true) (n : Nat) (d : List Byte) (k : Nat)
include hm

theorem Memory.read_writeBytes_frame_header (hk : k < 4) :
    (m.writeBytes 0 (frame n d)).read k = BitVec.ofNat 8 (n >>> (8 * k)) := by
  have hread := Memory.read_writeBytes_in hm 0 (leBytes 4 n) k (by simpa using hk)
  rw [Nat.zero_add, leBytes_getElem] at hread
  rw [Memory.writeBytes_frame, Memory.read_writeBytes_out (Memory.writeBytes_wf hm _ _) _ _ _ (.inl hk), hread]

theorem Memory.read_writeBytes_frame_payload (hk : k < d.length) :
    (m.writeBytes 0 (frame n d)).read (4 + k) = d[k] := by
  rw [Memory.writeBytes_frame, Memory.read_writeBytes_in (Memory.writeBytes_wf hm _ _)]

theorem Memory.read_writeBytes_frame_beyond (hk : 4 + d.length ≤ k) :
    (m.writeBytes 0 (frame n d)).read k = m.read k :=
  Memory.read_writeBytes_out hm _ _ _ (.inr (by simpa using hk))

/-- R27: the bits of a byte sequence written at address 0, as R9 `Bit` numbers them. -/
theorem Memory.bit_writeBytes {ys : List Byte} {b : Nat} (hb : b < 8 * ys.length) :
    (m.writeBytes 0 ys).bit b = seqBit ys b := by
  have hlt : b / 8 < ys.length := by omega
  have hread := Memory.read_writeBytes_in hm 0 ys (b / 8) hlt
  rw [Nat.zero_add] at hread
  rw [Memory.bit, hread, seqBit_getElem _ _ hlt]

end reads

/-! One command. -/

theorem execAll_cons {i : Instr} {is : List Instr} {s t : State} (h : exec i s = .next t) :
    execAll (i :: is) s = execAll is t := by
  simp only [execAll, h]

/-- R66: BA_INIT with the header and then PK_CONCAT with the payload have the effect of FR_BUILD, and send a response
each. -/
theorem execAll_baInit_pkConcat {a : Word} {d : List Byte} {s : State} (h : admitted (.frBuild a d) s) :
    execAll [.baInit 4 (leBytes 4 a.toNat), .pkConcat a d] s =
      .next (((effect (.frBuild a d) s).respond 0 4 []).respond 0 (BitVec.ofNat 64 (4 + a.toNat)) []) := by
  obtain ⟨hd, -, hle⟩ := h
  have hheader : admitted (.baInit 4 (leBytes 4 a.toNat)) s := ⟨leBytes_length .., (Nat.le_add_right 4 _).trans hle⟩
  have hpayload : admitted (.pkConcat a d) ((effect (.baInit 4 (leBytes 4 a.toNat)) s).respond 0 4 []) := ⟨hd, hle⟩
  rw [effect, Memory.writeBytes_frame]
  exact (execAll_cons (exec_of_admitted hheader)).trans (execAll_singleton (exec_of_admitted hpayload))

/-- Settles O34: the two checks in their order, then the frame, byte by byte. -/
theorem frBuildBuildsTheFrame : Obligations.FrBuildBuildsTheFrame := by
  intro a d s hd
  refine ⟨encode_eq _, fun hbig => (needData_of_eq hd).trans (if_pos hbig),
    fun hlt hbig => (needData_of_eq hd).trans ((if_neg hlt.not_ge).trans (if_pos hbig)), fun hs hlt hle => ?_⟩
  have ha : admitted (.frBuild a d) s := ⟨hd, hlt, hle⟩
  have hlen := hs.toNat_ofNat hle
  exact ⟨_, exec_of_admitted ha, State.answered_respond rfl (hlen.symm.trans_lt (BitVec.isLt _)), hlen, rfl,
    Memory.read_writeBytes_frame_header hs.fbWf a.toNat d, Memory.read_writeBytes_frame_payload hs.fbWf a.toNat d,
    Memory.read_writeBytes_frame_beyond hs.fbWf a.toNat d, rfl, rfl, rfl, rfl, fun _ => rfl,
    _, execAll_baInit_pkConcat ha, rfl, rfl, rfl, rfl, rfl⟩

/-- A command that leaves `STATUS` 0 met no error: its checks passed, and it had its effect and answered. -/
theorem exec_success {i : Instr} {s t : State} (h : exec i s = .next t) (ht : t.status = 0) :
    admitted i s ∧ t = (effect i s).respond 0 (BitVec.ofNat 64 (answer i s)) (output i s) := by
  obtain ⟨e, r, -, rfl⟩ | ha := exec_cases h
  · exact absurd ht e.status_ne_zero
  · exact ha

/-- Settles O35: a bit of the frame is one of its header or of its payload, and an iteration from `ITER` 0 reads all. -/
theorem frameBitsAreHeaderThenPayload : Obligations.FrameBitsAreHeaderThenPayload := by
  intro a d s t hs hd h ht
  obtain ⟨⟨-, -, hle⟩, rfl⟩ := exec_success h ht
  have hbit {b : Nat} (hb : b < 8 * (4 + d.length)) :
      (s.fb.writeBytes 0 (frame a.toNat d)).bit b = seqBit (frame a.toNat d) b :=
    Memory.bit_writeBytes hs.fbWf (by rwa [frame_length])
  refine ⟨fun b hb => ?header, fun b hlt hb => ?payload, ?iteration⟩
  case header => exact (hbit (by omega)).trans (seqBit_frame_header _ _ _ hb)
  case payload =>
    refine (hbit (by omega)).trans ?_
    rw [seqBit_frame_payload _ _ _ hb, seqBit_getElem _ _ hlt, byteBit]
  case iteration =>
    obtain ⟨u, hread, -⟩ := (hs.exec h).readsOut_replicate_baIterNext (n := 8 * (4 + a.toNat))
      (by rw [State.respond_fbLen, effect, State.construct_fbLen, hs.toNat_ofNat hle]; exact (Nat.zero_add _).le)
    refine ⟨u, hread.run, hread.sent.trans ?_⟩
    rw [List.range_eq_range']
    rfl

end Sys2Proof.Machine
end

section
/-! PROOFS. The channel-mapper statements (spec/43_channel_mapper.md): the channel map (R69, R70), the carrier loaded,
sent and read or written one bit at a time (R71 to R74), and what no command but PB_LOAD changes in it (R75). -/

namespace Sys2Proof.Machine

/-! The channel map. -/

/-- R69 M1: the channel of a bit. -/
theorem offset_mod_four (b : Nat) : offset b % 4 = b % 3 := by
  unfold offset
  omega

/-- R69 M5: the pixel of a bit. -/
theorem offset_div_four (b : Nat) : offset b / 4 = b / 3 := by
  unfold offset
  omega

/-- R69 M3: the inverse of the map. -/
theorem eq_of_offset (b : Nat) : b = 3 * (offset b / 4) + offset b % 4 := by
  rw [offset_div_four, offset_mod_four, Nat.div_add_mod]

/-- R69 M5: channel `c` of pixel `p` carries bit `3p + c`. -/
theorem offset_pixel (p c : Nat) (hc : c < 3) : offset (3 * p + c) = 4 * p + c := by
  unfold offset
  omega

/-- R69 M2: the next bit lies in the next byte, or past the alpha byte of its pixel. -/
theorem offset_succ (b : Nat) : offset (b + 1) = offset b + if b % 3 = 2 then 2 else 1 := by
  unfold offset
  split_ifs <;> omega

/-- R69 M3: every byte but the alpha bytes carries a bit. -/
theorem exists_offset_eq_iff (o : Nat) : (∃ b, offset b = o) ↔ o % 4 ≠ 3 := by
  constructor
  · rintro ⟨b, rfl⟩
    exact offset_mod b
  · intro ho
    exact ⟨3 * (o / 4) + o % 4, (offset_pixel _ _ (by omega)).trans (Nat.div_add_mod o 4)⟩

/-- Settles O36: M1 to M5, one lemma each. -/
theorem offsetSkipsAlpha : Obligations.OffsetSkipsAlpha :=
  ⟨fun b => ⟨offset_mod_four b, offset_mod b⟩,
    fun b => ⟨fun hb => (offset_succ b).trans (congrArg _ (if_neg (by omega))),
      fun hb => (offset_succ b).trans (congrArg _ (if_pos hb))⟩,
    fun _ _ => offset_lt, fun _ _ => offset_inj.1, exists_offset_eq_iff, eq_of_offset, fun p b => offset_lt_pixels b p,
    fun p => ⟨offset_pixel p 0 (by decide), offset_pixel p 1 (by decide), offset_pixel p 2 (by decide)⟩⟩

/-- R70: the offset of a bit that CM_MAP takes. -/
theorem offset_lt_two_pow {b : Nat} (hb : b < 2 ^ 48) : offset b < 2 ^ 50 := by
  unfold offset
  omega

/-- Settles O37: the range check, then the offset. -/
theorem cmMapReturnsTheOffset : Obligations.CmMapReturnsTheOffset := by
  intro a s
  refine ⟨encode_eq _, fun hbig => if_pos hbig, fun ha => ?_⟩
  have hlt := offset_lt_two_pow ha
  have hans : s.Answered _ 0 (offset a.toNat) [] := State.answered_respond (t := s) rfl (by omega)
  exact ⟨_, exec_of_admitted (i := .cmMap a) ha, hans, hans.result.trans_lt hlt, s.sameButResponse_respond ..⟩

/-! The whole carrier. -/

/-- R49: the bytes of PB_LOAD, its geometry operand as two words. -/
theorem encode_pbLoad (w h : HWord) (d : List Byte) :
    encode (.pbLoad w h d) = [0, 0, 0, 0x31] ++ leBytes 4 h.toNat ++ leBytes 4 w.toNat ++ d := by
  have hops : (Instr.pbLoad w h d).operands.flatMap (fun a => leBytes 8 a.toNat) =
      leBytes 4 h.toNat ++ leBytes 4 w.toNat := (List.append_nil _).trans (leBytes_geoWord w h)
  rw [encode_eq, hops, ← List.append_assoc]
  rfl

/-- R6 P2, R26: a length that fits in `PB` fits in `RESULT`. -/
theorem State.Inv.lt_of_le_pbMaxBytes {s : State} (hs : s.Inv) {n : Nat} (hn : n ≤ s.params.pbMaxBytes) :
    n < 2 ^ 64 := by
  have hp := hs.paramsOk
  omega

/-- Settles O38: the data bytes are written below `4*w*h`, so nothing at it or beyond changes. -/
theorem pbLoadCopiesTheRaster : Obligations.PbLoadCopiesTheRaster := by
  intro w h d s hd
  refine ⟨encode_pbLoad w h d, fun hbig => (needData_of_eq hd).trans (if_pos hbig), fun hs hle => ?_⟩
  refine ⟨_, exec_of_admitted (i := .pbLoad w h d) ⟨hd, hle⟩,
    State.answered_respond rfl (hs.lt_of_le_pbMaxBytes hle), rfl, rfl, fun k hk => ?below,
    fun k hk => ?beyond, rfl, rfl, rfl, rfl, fun _ => rfl⟩
  case below =>
    have hread := Memory.read_writeBytes_in hs.pbWf 0 d k hk
    rwa [Nat.zero_add] at hread
  case beyond => exact Memory.read_writeBytes_out hs.pbWf 0 d k (.inr (by omega))

/-- R49, R72: the geometry that PB_DUMP returns is the operand word that loads it. -/
theorem State.geometry_eq_geoWord (s : State) : s.geometry = (geoWord s.width s.height).toNat := by
  rw [geoWord, BitVec.toNat_append, State.geometry]

/-- Settles O39: the bytes sent are read from address 0 on. -/
theorem pbDumpSendsTheCarrier : Obligations.PbDumpSendsTheCarrier := by
  refine ⟨encode_eq _, fun s hs => ?_⟩
  rw [← geoWord_toNat, ← State.geometry_eq_geoWord]
  refine ⟨_, s.pb.readBytes 0 s.pbLen, exec_of_admitted (i := .pbDump) hs.pbLen_le,
    State.answered_respond rfl (s.geometry_eq_geoWord.trans_lt (BitVec.isLt _)), Memory.readBytes_length ..,
    fun k hk => ?_, s.sameButResponse_respond ..⟩
  rw [Memory.readBytes_getElem, Nat.zero_add]

/-! One bit of the carrier. -/

/-- R73: bit 0 of a byte, as a number. -/
theorem toNat_byteBit_zero (x : Byte) : (byteBit x 0).toNat = x.toNat &&& 1 := by
  rw [byteBit, BitVec.getLsbD, Nat.toNat_testBit, pow_zero, Nat.div_one, Nat.and_one_is_mod]

/-- R49, R74: the byte that PB_LSBWR stores, by the operand `v`. -/
theorem lsbByte_writeBit (x v : Byte) : lsbByte x (writeBit v) = (x &&& 0xFE) ||| (v &&& 1) := by
  have hbit : (BitVec.ofBool (writeBit v)).setWidth 8 = v &&& 1 := by
    apply BitVec.eq_of_toNat_eq
    rw [BitVec.toNat_setWidth, BitVec.toNat_ofBool, writeBit, toNat_byteBit_zero, BitVec.toNat_and,
      show (1 : Byte).toNat = 1 from rfl, Nat.and_one_is_mod]
    omega
  exact congrArg ((x &&& 0xFE) ||| ·) hbit

/-- R73, R74: an index from `3*WIDTH*HEIGHT` on maps to no byte of the carrier. -/
theorem pbLen_le_offset {s : State} {b : Nat} (hb : usableBits s.width s.height ≤ b) : s.pbLen ≤ offset b :=
  Nat.le_of_not_lt fun h => hb.not_gt ((offset_lt_carrierLen b s.width s.height).1 h)

/-- R32, R73, R74: the byte of a bit in range is there. -/
theorem State.Inv.offset_room {s : State} (hs : s.Inv) {b : Nat} (hb : b < usableBits s.width s.height) :
    offset b < s.pbLen ∧ offset b + 1 ≤ s.params.pbMaxBytes :=
  have hlt : offset b < s.pbLen := (offset_lt_carrierLen b s.width s.height).2 hb
  ⟨hlt, hlt.trans_le hs.pbLen_le⟩

/-- Settles O40: the check of the index, then the bit. -/
theorem pbLsbrdReadsTheCarrierBit : Obligations.PbLsbrdReadsTheCarrierBit := by
  intro a s
  refine ⟨encode_eq _, fun hend => if_pos (pbLen_le_offset hend), fun hs hlt => ?_⟩
  rw [← toNat_byteBit_zero]
  exact ⟨_, exec_of_admitted (i := .pbLsbrd a) (hs.offset_room hlt),
    State.answered_respond rfl ((Bool.toNat_lt _).trans (by decide)), s.sameButResponse_respond ..⟩

/-- Settles O41: the check of the index, then bit 0 of one byte. -/
theorem pbLsbwrWritesTheCarrierBit : Obligations.PbLsbwrWritesTheCarrierBit := by
  intro v a s
  refine ⟨encode_eq _, fun hend => if_pos (pbLen_le_offset hend), fun hs hlt => ?_⟩
  have hread := Memory.read_setLsb hs.pbWf a.toNat (writeBit v)
  rw [← lsbByte_writeBit]
  exact ⟨_, exec_of_admitted (i := .pbLsbwr v a) (hs.offset_room hlt),
    State.answered_respond rfl (show 0 < 2 ^ 64 by decide),
    (hread _).trans (if_pos rfl), fun o ho => (hread o).trans (if_neg ho), rfl, rfl, rfl, rfl, rfl, rfl, fun _ => rfl⟩

/-! What no command but PB_LOAD changes in the carrier. -/

/-- R69 M1: the map names no alpha byte. -/
theorem ne_offset_of_alpha {o : Nat} (ho : o % 4 = 3) (b : Nat) : o ≠ offset b := by
  rintro rfl
  exact offset_mod b ho

section preserved
variable {m : Memory} (hm : m.wf = true)
include hm

theorem Memory.read_setLsb_alpha (b : Nat) (d : Bool) {o : Nat} (ho : o % 4 = 3) :
    (m.setLsb b d).read o = m.read o :=
  (Memory.read_setLsb hm b d o).trans (if_neg (ne_offset_of_alpha ho b))

theorem Memory.read_setLsb_upper (b : Nat) (d : Bool) (o : Nat) {k : Nat} (hk : k ≠ 0) :
    byteBit ((m.setLsb b d).read o) k = byteBit (m.read o) k := by
  rw [Memory.read_setLsb hm]
  split_ifs
  · rw [lsbByte_bit, if_neg hk]
  · rfl

theorem Memory.read_embed_alpha (f : List Byte) (n : Nat) {o : Nat} (ho : o % 4 = 3) :
    (m.embed f n).read o = m.read o :=
  Memory.read_embed_other hm f n o fun b _ => ne_offset_of_alpha ho b

end preserved

/-- R33: all that an effect other than PB_LOAD's can do to the carrier: nothing, one bit written at its mapped offset,
or an embedding. -/
theorem effect_pb_cases {i : Instr} (s : State) (hi : i.op ≠ .pbLoad) :
    (effect i s).pb = s.pb ∨ (∃ b d, (effect i s).pb = s.pb.setLsb b d) ∨
      ∃ f n, (effect i s).pb = s.pb.embed f n := by
  by_cases hlist : i.op ∈ [Op.pbLoad, .pbLsbwr, .cdEncode]
  · cases i <;> simp [Instr.op] at hlist hi
    case pbLsbwr => exact .inr (.inl ⟨_, _, rfl⟩)
    case cdEncode => exact .inr (.inr ⟨_, _, rfl⟩)
  · exact .inl (effect_pb s hlist)

section effect
variable {i : Instr} {s : State} (hpb : s.pb.wf = true) (hi : i.op ≠ .pbLoad) (o : Nat)
include hpb hi

theorem read_effect_alpha (ho : o % 4 = 3) : (effect i s).pb.read o = s.pb.read o := by
  obtain h | ⟨b, d, h⟩ | ⟨f, n, h⟩ := effect_pb_cases s hi <;> rw [h]
  · exact Memory.read_setLsb_alpha hpb b d ho
  · exact Memory.read_embed_alpha hpb f n ho

theorem read_effect_upper {k : Nat} (hk : k ≠ 0) :
    byteBit ((effect i s).pb.read o) k = byteBit (s.pb.read o) k := by
  obtain h | ⟨b, d, h⟩ | ⟨f, n, h⟩ := effect_pb_cases s hi <;> rw [h]
  · exact Memory.read_setLsb_upper hpb b d o hk
  · exact Memory.read_embed_upper hpb f n o k hk

end effect

/-- Settles O23: an effect writes the carrier only by bits at mapped offsets, and an error does not write it. -/
theorem alphaAndUpperBitsArePreserved : Obligations.AlphaAndUpperBitsArePreserved := by
  intro i s t hpb hi h
  refine ⟨fun o ho => ?alpha, fun o k hk => ?upper⟩
  case alpha => exact exec_field_eq (fun u => u.pb.read o) h (fun _ _ _ _ => rfl) (read_effect_alpha hpb hi o ho)
  case upper =>
    exact exec_field_eq (fun u => byteBit (u.pb.read o) k) h (fun _ _ _ _ => rfl) (read_effect_upper hpb hi o hk)

end Sys2Proof.Machine
end

section
/-! PROOFS. The capacity-validator statements (spec/44_capacity.md): the consequences of the formulas (R77), and what
the four commands return (R78 to R81). -/

namespace Sys2Proof.Machine

/-! The consequences. -/

/-- R77 K1: `3*13 = 39 < 40 <= 42 = 3*14`. -/
theorem imgOk_iff_pixels (w h : HWord) : imgOk w h = true ↔ 14 ≤ w.toNat * h.toNat := by
  rw [imgOk_iff, maxTotal, usableBits, Nat.mul_assoc]
  omega

/-- R77 K2. -/
theorem imgOk_of_payOk {w h : HWord} {n : Nat} (hn : payOk w h n = true) : imgOk w h = true := by
  rw [payOk_iff] at hn
  rw [imgOk_iff]
  omega

/-- R77 K3: for a valid image, the valid payload sizes are those from 1 to `mt - 4`. -/
theorem payOk_iff_of_imgOk {w h : HWord} (hok : imgOk w h = true) (n : Nat) :
    payOk w h n = true ↔ 0 < n ∧ n ≤ maxTotal w h - 4 := by
  rw [imgOk_iff] at hok
  rw [payOk_iff]
  omega

/-- R77 K6. -/
theorem payOk_zero (w h : HWord) : payOk w h 0 = false :=
  Bool.eq_false_iff.2 fun h0 => absurd ((payOk_iff w h 0).1 h0).1 (Nat.lt_irrefl 0)

/-- R77 K7. -/
theorem frame_fits_of_payOk {w h : HWord} {n : Nat} (hn : payOk w h n = true) : 8 * (4 + n) ≤ usableBits w h :=
  frame_fits (Nat.add_comm n 4 ▸ ((payOk_iff w h n).1 hn).2)

/-- Settles O42: K1 to K7, where K4 and K5 are evaluated. -/
theorem capacityConsequences : Obligations.CapacityConsequences := by
  refine ⟨imgOk_iff_pixels, fun _ _ _ => imgOk_of_payOk, fun w h hok => ?boundary, by decide, by decide, payOk_zero,
    fun _ _ _ => frame_fits_of_payOk⟩
  have hpay := payOk_iff_of_imgOk hok
  have hmt := (imgOk_iff w h).1 hok
  refine ⟨by omega, (hpay _).2 ⟨by omega, le_rfl⟩, ?beyond, fun n hn => ((hpay n).1 hn).2⟩
  rw [Bool.eq_false_iff, Ne, hpay]
  omega

/-! The commands. -/

/-- R49: the bytes of a command whose first operand is a geometry and that has no data: that operand as two words. -/
theorem encode_of_geoWord {i : Instr} {w h : HWord} {as : List Word} (hops : i.operands = geoWord w h :: as)
    (hdata : i.data = []) :
    encode i = [0, 0, i.v, i.op.code] ++ leBytes 4 h.toNat ++ leBytes 4 w.toNat ++
      as.flatMap (fun a => leBytes 8 a.toNat) := by
  rw [encode_eq, hops, hdata, List.append_nil, List.flatMap_cons, leBytes_geoWord, List.append_assoc,
    List.append_assoc, List.append_assoc]

/-- A command with no check and no effect of its own, whose answer fits in `RESULT`, returns it and leaves all else. -/
theorem exec_answers {i : Instr} {s : State} (hi : admitted i s) (heffect : effect i s = s)
    (hlt : answer i s < 2 ^ 64) :
    ∃ t, exec i s = .next t ∧ s.Answered t 0 (answer i s) (output i s) ∧ s.SameButResponse t := by
  refine ⟨_, exec_of_admitted hi, ?_, ?_⟩ <;> rw [heffect]
  · exact State.answered_respond rfl hlt
  · exact s.sameButResponse_respond ..

/-- Settles O43: the answer is below `2^63`. -/
theorem cvMaxtotalReturnsMt : Obligations.CvMaxtotalReturnsMt := fun w h s =>
  ⟨encode_of_geoWord (i := .cvMaxtotal w h) rfl rfl,
    exec_answers (i := .cvMaxtotal w h) (s := s) trivial rfl ((maxTotal_lt w h).trans (by decide))⟩

/-- R79: the 64-bit pattern of the difference fits in `RESULT`. -/
theorem maxPayloadWord_lt (w h : HWord) : maxPayloadWord w h < 2 ^ 64 := by
  unfold maxPayloadWord
  omega

/-- R76, R79: the difference is in the range of a signed word, so its pattern read as a signed value is it. -/
theorem toInt_eq_maxPayload {r : Word} {w h : HWord} (hr : r.toNat = maxPayloadWord w h) :
    r.toInt = maxPayload w h := by
  have hlt := maxTotal_lt w h
  rw [BitVec.toInt_eq_toNat_cond, hr, maxPayloadWord, maxPayload]
  split_ifs <;> omega

/-- Settles O44: `RESULT` holds the pattern of the difference. -/
theorem cvMaxpayReturnsTheSignedDifference : Obligations.CvMaxpayReturnsTheSignedDifference := by
  intro w h s
  obtain ⟨t, hexec, hans, hsame⟩ :=
    exec_answers (i := .cvMaxpay w h) (s := s) trivial rfl (maxPayloadWord_lt w h)
  exact ⟨encode_of_geoWord (i := .cvMaxpay w h) rfl rfl, t, hexec, toInt_eq_maxPayload hans.result,
    hans.result ▸ hans, hsame⟩

/-- R80, R81: the answer of a test fits in `RESULT`. -/
theorem ite_one_zero_lt (p : Prop) [Decidable p] : (if p then 1 else 0) < 2 ^ 64 := by
  split_ifs <;> decide

/-- Settles O45: the answer of the command is the test of R76. -/
theorem cvImgokTellsValidImages : Obligations.CvImgokTellsValidImages := by
  intro w h s
  refine ⟨encode_of_geoWord (i := .cvImgok w h) rfl rfl, ?_⟩
  have hreturns := exec_answers (i := .cvImgok w h) (s := s) trivial rfl (ite_one_zero_lt _)
  simp only [answer, imgOk_iff] at hreturns
  exact hreturns

/-- Settles O46: the answer of the command is the test of R76, over the natural numbers. -/
theorem cvPayokTellsValidPayloads : Obligations.CvPayokTellsValidPayloads := by
  intro w h b s
  refine ⟨encode_of_geoWord (i := .cvPayok w h b) rfl rfl, ?_⟩
  have hreturns := exec_answers (i := .cvPayok w h b) (s := s) trivial rfl (ite_one_zero_lt _)
  simp only [answer, payOk_iff] at hreturns
  exact hreturns

end Sys2Proof.Machine
end

section
/-! PROOFS. The codec statements (spec/45_codec.md): what CD_ENCODE and CD_DECODE do to the carrier and to the BitArray
(R83, R84), and the payload that comes back (R85). -/

namespace Sys2Proof.Machine

/-! The header and the payload, by the checks on them. -/

/-- P2 of R6: the length of a payload that fits in the carrier fits in the header. -/
theorem State.Inv.payload_lt {s : State} (hs : s.Inv) {n : Nat} (hle : n ≤ maxTotal s.width s.height - 4) :
    n < 2 ^ 32 := by
  have hp2 := hs.paramsOk.2.1
  have hmt := maxTotal_le_of_pbLen hs.pbLen_le
  omega

section checks
variable {s : State} (hs : s.Inv) (hm : 4 < maxTotal s.width s.height) {n : Nat}
include hs hm

/-- R84: a header of 0. -/
theorem State.Inv.exec_cdDecode_zero (hheader : s.pb.gather 0 32 = 0) :
    Machine.exec .cdDecode s = raise .headerZero 0 s := by
  refine exec_of_error rfl hs.pbLen_le ?_
  rw [Machine.errorOf, hheader, if_neg (not_not_intro hm), if_pos rfl]

/-- R84: a header beyond the capacity of the carrier. -/
theorem State.Inv.exec_cdDecode_tooLarge (hheader : s.pb.gather 0 32 = n) (h0 : n ≠ 0)
    (hbig : maxTotal s.width s.height - 4 < n) : Machine.exec .cdDecode s = raise .headerTooLarge n s := by
  refine exec_of_error rfl hs.pbLen_le ?_
  rw [Machine.errorOf, hheader, if_neg (not_not_intro hm), if_neg h0, if_pos hbig]

/-- R84: a header in range is the length of the payload that CD_DECODE extracts. -/
theorem State.Inv.exec_cdDecode (hheader : s.pb.gather 0 32 = n) (h0 : n ≠ 0)
    (hle : n ≤ maxTotal s.width s.height - 4) :
    Machine.exec .cdDecode s = done n [] (s.construct (s.fb.writeBytes 0 (s.pb.extract 0 n)) n) := by
  subst hheader
  have hmt := hs.maxTotal_le_fbMaxBytes
  exact exec_of_admitted (i := .cdDecode) ⟨hm, hs.pbLen_le, h0, hle, by omega⟩

/-- R83: a payload in range is embedded with its header. -/
theorem State.Inv.exec_cdEncode {a : Word} {d : List Byte} (hd : d.length = a.toNat) (h0 : a.toNat ≠ 0)
    (hle : a.toNat ≤ maxTotal s.width s.height - 4) :
    Machine.exec (.cdEncode a d) s =
      done (4 + a.toNat) [] { s with pb := s.pb.embed (frame a.toNat d) (8 * (4 + a.toNat)) } :=
  exec_of_admitted (i := .cdEncode a d) ⟨hd, hm, h0, hle, hs.pbLen_le⟩

end checks

/-! One command. -/

/-- Settles O47: the three checks in their order, then the bits of the frame at their mapped offsets. -/
theorem cdEncodeEmbedsTheFrame : Obligations.CdEncodeEmbedsTheFrame := by
  intro a d s hd m
  refine ⟨encode_eq _, fun hm => (needData_of_eq hd).trans (if_pos hm.not_gt),
    fun hm h0 => (needData_of_eq hd).trans ((if_neg (not_not_intro hm)).trans (if_pos h0)),
    fun hm h0 hbig => (needData_of_eq hd).trans
      ((if_neg (not_not_intro hm)).trans ((if_neg h0).trans (if_pos hbig))),
    fun hs hm h0 hle => ?_⟩
  have hlsb (b : Nat) := Memory.lsb_embed hs.pbWf (frame a.toNat d) (8 * (4 + a.toNat)) b
  have hn := hs.payload_lt hle
  refine ⟨_, hs.exec_cdEncode hm hd h0 hle, State.answered_respond rfl (by omega), fun b hb => ?header,
    fun b hlt hb => ?payload, fun o k => Memory.read_embed_upper hs.pbWf _ _ o k,
    fun o => Memory.read_embed_other hs.pbWf _ _ o, rfl, rfl, rfl, rfl, rfl, rfl, fun _ => rfl⟩
  case header => exact (hlsb b (by omega)).trans (seqBit_frame_header _ _ _ hb)
  case payload =>
    exact (hlsb b (by omega)).trans ((seqBit_frame_payload _ _ _ hb).trans (seqBit_getElem _ _ hlt))

/-- Settles O48: the header is the number that its carrier bits give; the three checks in their order, then the payload
bytes, written below the new `FB_LEN`. -/
theorem cdDecodeExtractsThePayload : Obligations.CdDecodeExtractsThePayload := by
  refine ⟨encode_eq _, ?_⟩
  intro s n hn hbits m
  have hheader : s.pb.gather 0 32 = n := Memory.gather_eq hn fun b hb => by rw [Nat.zero_add]; exact hbits b hb
  refine ⟨fun hm => if_pos hm.not_gt, fun hs hm h0 => hs.exec_cdDecode_zero hm (hheader.trans h0),
    fun hs hm h0 hbig => hs.exec_cdDecode_tooLarge hm hheader h0 hbig, fun hs hm h0 hle => ?_⟩
  have hlt : n < 2 ^ 64 := hn.trans (by decide)
  have hlen := Memory.extract_length s.pb 0 n
  refine ⟨_, hs.exec_cdDecode hm hheader h0 hle, State.answered_respond rfl hlt, Nat.mod_eq_of_lt hlt, rfl,
    fun j k hj hk => ?below, fun j hj => ?beyond, rfl, rfl, rfl, rfl, fun _ => rfl⟩
  case below =>
    have hread := Memory.read_writeBytes_in hs.fbWf 0 _ j (hj.trans_eq hlen.symm)
    rw [Nat.zero_add] at hread
    rw [State.respond_fb, State.construct_fb, hread]
    exact Memory.bit_extract s.pb n j k _ hk
  case beyond => exact Memory.read_writeBytes_out hs.fbWf 0 _ j (.inr (by omega))

/-! The payload comes back. -/

section embedded
variable {m : Memory} (hm : m.wf = true) {n : Nat} (d : List Byte)
include hm

/-- R84: the header read from an embedded frame is the length of its payload. -/
theorem Memory.gather_embed_frame (hn : n < 2 ^ 32) : (m.embed (frame n d) (8 * (4 + n))).gather 0 32 = n :=
  Memory.gather_eq hn fun b hb => by
    rw [Nat.zero_add, Memory.lsb_embed hm _ _ _ (by omega), seqBit_frame_header _ _ _ hb]

/-- R84: the payload read from an embedded frame is the one embedded. -/
theorem Memory.extract_embed_frame (hd : d.length = n) : (m.embed (frame n d) (8 * (4 + n))).extract 0 n = d := by
  apply List.ext_getElem (by simp [hd])
  intro j hj hj'
  apply BitVec.eq_of_getLsbD_eq
  intro k hk
  have hindex : (32 + 8 * j + k - 32) / 8 = j ∧ (32 + 8 * j + k - 32) % 8 = k := by omega
  have hbit := Memory.bit_extract (m.embed (frame n d) (8 * (4 + n))) n j k hj hk
  rw [Memory.lsb_embed hm _ _ _ (by omega), seqBit_frame_payload _ _ _ (by omega),
    seqBit_getElem _ _ (by omega)] at hbit
  simp only [hindex] at hbit
  exact hbit

end embedded

theorem execAll_cons_next {i : Instr} {is : List Instr} {s t : State} :
    execAll (i :: is) s = .next t ↔ ∃ u, exec i s = .next u ∧ execAll is u = .next t := by
  cases h : exec i s <;> simp [execAll, h]

/-- R33: a command that does not write the carrier leaves all that the codec reads (R25). -/
theorem exec_sameCarrier {i : Instr} {s t : State} (hi : i.op ∉ [Op.pbLoad, .pbLsbwr, .cdEncode])
    (h : exec i s = .next t) : s.SameCarrier t := by
  have hload : i.op ≠ .pbLoad := fun he => hi (he ▸ List.mem_cons_self)
  have hgeometry := effect_width_height s hload
  exact
    { params := (exec_field_eq State.params h State.respond_params (effect_params i s)).symm
      width := (exec_field_eq State.width h State.respond_width hgeometry.1).symm
      height := (exec_field_eq State.height h State.respond_height hgeometry.2).symm
      pb := (exec_field_eq State.pb h State.respond_pb (effect_pb s hi)).symm }

theorem State.SameCarrier.trans {s t u : State} (h : s.SameCarrier t) (h' : t.SameCarrier u) : s.SameCarrier u :=
  ⟨h.params.trans h'.params, h.width.trans h'.width, h.height.trans h'.height, h.pb.trans h'.pb⟩

theorem execAll_sameCarrier {is : List Instr} {s t : State}
    (his : ∀ i ∈ is, i.op ∉ [Op.pbLoad, .pbLsbwr, .cdEncode]) (h : execAll is s = .next t) : s.SameCarrier t := by
  induction is generalizing s with
  | nil =>
    cases h
    exact ⟨rfl, rfl, rfl, rfl⟩
  | cons i is ih =>
    obtain ⟨hi, his⟩ := List.forall_mem_cons.1 his
    obtain ⟨u, hu, hrest⟩ := execAll_cons_next.1 h
    exact (exec_sameCarrier hi hu).trans (ih his hrest)

/-- Settles O51: the commands between leave the embedded frame in the carrier, and its header and payload are read
back. -/
theorem decodeReturnsTheEncodedPayload : Obligations.DecodeReturnsTheEncodedPayload := by
  intro a d is s t' hs hd h1 hle his hrun
  obtain ⟨t, ht, hrest⟩ := execAll_cons_next.1 hrun
  have hm : 4 < maxTotal s.width s.height := by
    rw [maxTotal, usableBits]
    omega
  have h0 : a.toNat ≠ 0 := by omega
  obtain rfl := done_next.1 ((hs.exec_cdEncode hm hd h0 hle).symm.trans ht)
  refine ⟨⟨_, ht, rfl⟩, ?_⟩
  have hinv : t'.Inv := hs.execAll hrun
  obtain ⟨-, hw, hh, hpb⟩ := execAll_sameCarrier his hrest
  simp only [State.respond_width, State.respond_height, State.respond_pb] at hw hh hpb
  have hheader : t'.pb.gather 0 32 = a.toNat := by
    rw [← hpb, Memory.gather_embed_frame hs.pbWf d (hs.payload_lt hle)]
  have hpayload : t'.pb.extract 0 a.toNat = d := by
    rw [← hpb, Memory.extract_embed_frame hs.pbWf d hd]
  have hword : BitVec.ofNat 64 a.toNat = a := by rw [BitVec.ofNat_toNat, BitVec.setWidth_eq]
  have hexec := hinv.exec_cdDecode (hw ▸ hh ▸ hm) hheader h0 (hw ▸ hh ▸ hle)
  rw [hpayload] at hexec
  refine ⟨_, hexec, rfl, hword, hword, fun j hj => ?_⟩
  have hread := Memory.read_writeBytes_in hinv.fbWf 0 d j hj
  rwa [Nat.zero_add] at hread

end Sys2Proof.Machine
end

section
/-! PROOFS. The statement of spec/60_exceptions.md: what an error leaves (R88, R91). -/

namespace Sys2Proof.Machine

/-! The RESULT column of R88. -/

/-- R88: the number an error leaves in `RESULT` when a command raises it in `s`. -/
def Err.result (s : State) : Err → Nat
  | .payloadTooLarge => maxTotal s.width s.height - 4
  | .payloadEmpty => maxTotal s.width s.height - 4
  | .headerTooLarge => s.pb.gather 0 32
  | _ => 0

section result
variable {e : Err} (s : State)

/-- R88, rows 0x32 and 0x42. -/
theorem Err.result_of_payload (he : e.status = 0x32 ∨ e.status = 0x42) :
    e.result s = maxTotal s.width s.height - 4 := by
  cases e
  case payloadTooLarge | payloadEmpty => rfl
  all_goals exact absurd he (by decide)

/-- R88, row 0x23. -/
theorem Err.result_of_header (he : e.status = 0x23) : e.result s = s.pb.gather 0 32 := by
  cases e
  case headerTooLarge => rfl
  all_goals exact absurd he (by decide)

/-- R88, every other row. -/
theorem Err.result_of_other (h32 : e.status ≠ 0x32) (h42 : e.status ≠ 0x42) (h23 : e.status ≠ 0x23) :
    e.result s = 0 := by
  cases e
  case payloadTooLarge => exact absurd rfl h32
  case payloadEmpty => exact absurd rfl h42
  case headerTooLarge => exact absurd rfl h23
  all_goals rfl

end result

/-! The errors of the meanings. -/

/-- R88: an error of a command's meaning is none of the decoder's two, and leaves the `RESULT` of its row. For CD_DECODE's
header of 0 the meaning passes on the header, which is that 0. -/
theorem errorOf_result {i : Instr} {s : State} {e : Err} {r : Nat} (h : errorOf i s = some (e, r)) :
    e ≠ .undefinedOpcode ∧ e ≠ .reservedBits ∧ r = e.result s := by
  cases i <;> simp only [errorOf] at h
  case cdDecode =>
    generalize hheader : s.pb.gather 0 32 = n at h
    split_ifs at h with hm h0 hbig <;> cases h
    · exact ⟨nofun, nofun, h0⟩
    · exact ⟨nofun, nofun, hheader.symm⟩
    · exact ⟨nofun, nofun, rfl⟩
  case baInit | baRead | baWrite | pkLe32 | pkConcat | frBuild | cmMap | pbLoad | pbLsbrd | pbLsbwr | cdEncode =>
    split_ifs at h <;> cases h <;> exact ⟨nofun, nofun, rfl⟩
  all_goals cases h

/-- R88: the words of the errors that the meanings raise. -/
theorem Err.status_mem {e : Err} (hop : e ≠ .undefinedOpcode) (hres : e ≠ .reservedBits) :
    e.status ∈ [0x11#32, 0x21#32, 0x12#32, 0x22#32, 0x32#32, 0x42#32, 0x13#32, 0x23#32, 0x16#32, 0x26#32, 0x37#32] := by
  cases e
  case undefinedOpcode => exact absurd rfl hop
  case reservedBits => exact absurd rfl hres
  all_goals decide

/-! The header in RESULT. -/

/-- R84: the header word read from the carrier, bit by bit: the carrier's first 32 bits below 0s. -/
theorem Memory.getLsbD_header (m : Memory) (b : Nat) :
    (BitVec.ofNat 64 (m.gather 0 32)).getLsbD b = (decide (b < 32) && (m.read (offset b)).getLsbD 0) := by
  have hlt := Memory.gather_lt m 0 32
  by_cases hb : b < 32
  · rw [BitVec.getLsbD_ofNat, Memory.testBit_gather m 0 32 b hb, Nat.zero_add]
    simp [hb, show b < 64 by omega, Memory.lsb, byteBit]
  · have hbit : (m.gather 0 32).testBit b = false :=
      Nat.testBit_lt_two_pow (hlt.trans_le (Nat.pow_le_pow_right (by decide) (Nat.not_lt.1 hb)))
    simp [BitVec.getLsbD_ofNat, hb, hbit]

/-- Settles O22: a command whose `STATUS` is not 0 raised the first of its errors that holds, so the state is that
error's response, with the word and the `RESULT` of its row. -/
theorem errorsChangeNothingElse : Obligations.ErrorsChangeNothingElse := by
  intro i s t h ht
  obtain ⟨e, r, he, rfl⟩ | ⟨-, rfl⟩ := exec_cases h
  · obtain ⟨hop, hres, rfl⟩ := errorOf_result he
    refine ⟨Err.status_mem hop hres, fun hp => ?payload, fun hh b _ => ?header, fun h32 h42 h23 => ?other, rfl⟩
    case payload =>
      have hlt := maxTotal_lt s.width s.height
      rw [State.respond_result, Err.result_of_payload s hp, BitVec.toNat_ofNat]
      exact Nat.mod_eq_of_lt (by omega)
    case header =>
      rw [State.respond_result, Err.result_of_header s hh]
      exact s.pb.getLsbD_header b
    case other => rw [State.respond_result, Err.result_of_other s h32 h42 h23]; rfl
  · exact absurd rfl ht

end Sys2Proof.Machine
end

section
/-! PROOFS. The statement of spec/70_reset_and_hazards.md: a reset abandons the command it falls in (R101). -/

namespace Sys2Proof.Machine

/-- R101: a reset after bytes that are no whole command is taken, of either kind. -/
theorem step_of_reset_incomplete {s : State} {bs : List Byte} {rest : List HostInput} (hd : decode bs = .incomplete)
    (hs : s.inputs = bs.map .byte ++ .reset :: rest ∨ s.inputs = bs.map .byte ++ .resetInCommand :: rest) :
    step s = .next (s.applyReset rest) := by
  obtain hs | hs := hs
  all_goals
    apply step_reset
    · rwa [hs, leadingBytes_append, leadingBytes, List.append_nil]
    · rw [hs, afterReset_append, afterReset]

/-- R101: a whole command at the head of the stream, legal or not, that a reset falls in gives way to the reset. -/
theorem step_of_resetInCommand {s : State} {bs : List Byte} {rest : List HostInput}
    (hd : (∃ i, decode bs = .instr i bs.length) ∨ ∃ e, decode bs = .illegal e bs.length)
    (hs : s.inputs = bs.map .byte ++ .resetInCommand :: rest) : step s = .next (s.applyReset rest) := by
  have hbytes : leadingBytes s.inputs = bs := by rw [hs, leadingBytes_append, leadingBytes, List.append_nil]
  have hcut : cutBy (s.inputs.drop bs.length) = some rest := cutBy_eq_some.2 (s.drop_append bs _ hs)
  obtain ⟨i, hd⟩ | ⟨e, hd⟩ := hd
  · exact (step_instr ((congrArg decode hbytes).trans hd)).trans (takeCommand_cut hcut)
  · exact (step_illegal ((congrArg decode hbytes).trans hd)).trans (takeCommand_cut hcut)

/-- Settles O10: in (a) to (c) the decoder finds no whole command or one that the reset cuts, so the step is the reset; in
(d) no reset falls in the command. -/
theorem resetAbandonsTheCommand : Obligations.ResetAbandonsTheCommand := by
  refine ⟨fun s rest h => ?_, fun s i rest hw hs => step_encode hw hs (by simp)⟩
  have hreset : step s = .next (s.applyReset rest) := by
    obtain ⟨bs, hd, hs⟩ | ⟨i, hw, hs⟩ | ⟨bs, e, hd, hs⟩ := h
    · obtain hd | ⟨i, k, hw, hk, rfl⟩ := hd
      · exact step_of_reset_incomplete hd hs
      · exact step_of_reset_incomplete (decode_take_encode hw hk) hs
    · have hd : decode (encode i) = .instr i (encode i).length := by
        simpa using decode_encode_append hw []
      exact step_of_resetInCommand (.inl ⟨i, hd⟩) hs
    · exact step_of_resetInCommand (.inr ⟨e, hd⟩) hs
  exact ⟨s.applyReset rest, hreset, rfl, rfl, rfl, rfl, rfl, rfl, rfl, rfl, rfl, rfl⟩

end Sys2Proof.Machine
end
